-- ==== Sys2Proof/Word.lean ====
section
/-! DEFINITION. The words that cross NECRX's interfaces (spec/30_encoding.md) and the
interface transaction that carries them. -/

namespace Sys2Proof

/-- A symbol word, format SYMW (R70). -/
abbrev SymW := BitVec 32

/-- An outcome word, format OUTW (R73). -/
abbrev OutW := BitVec 64

/-- A command-table entry, format TBLE (R79). -/
abbrev EntryW := BitVec 9

/-- The unit of the block that reads a word. Rows of the opcode table share words (REFSEL 0 is
PAIR_MATCH.LEAD and CHECK_LEADING, CTLSEL 2 is DECODE and PSTEP), and R81 tells them apart by what
reads them; a transaction names that unit. DESIGN CHOICE, log 3; safe. -/
inductive Port where
  | symbolIn       -- one symbol word, SYMW
  | fePost         -- the front end's event port, EVW (R40)
  | window         -- the single-duration comparator, two naturals (R100)
  | comparator     -- the pair comparator, REFSEL and a symbol word (R103)
  | bitClassifier  -- the logic-bit classifier (R104)
  | leadingCheck   -- the leading-code validator (R106)
  | repeatCheck    -- the repeat-code validator (R107)
  | dispatcher     -- the dispatcher's event input, EVW (R160)
  | framePath      -- the path the length validator selects by COUNT, EVW (R161, R168, R170)
  | cmdTable       -- the command table's read port, a key (R163)
  | controller     -- the control FSM, CTLSEL (R81)
  | sequencer      -- the sequential parser, CTLSEL (R139)
  | rst            -- the reset input (R260)
  | out            -- the outcome port, OUTW (R73)
deriving DecidableEq, Repr, Inhabited

/-- One interface transaction: the unit and the words it is given, in order. Every quantity of the
block is an unsigned natural (R8), so a word is a natural and the decoder checks its width. -/
structure Xact where
  port  : Port
  words : List Nat
deriving DecidableEq, Repr, Inhabited

end Sys2Proof
end

