-- ==== Sys2Proof/Config.lean ====
section
/-! DEFINITION. The constants the source fixes (R4), the parameters it leaves open (R5) and the
values the spec leaves free (spec/93_implementation_defined.md). -/

namespace Sys2Proof

/-- NORMAL_LEN (R4): the symbol count that selects the normal-frame path. -/
@[simp] abbrev normalLen : Nat := 34

/-- REPEAT_LEN (R4): the symbol count that selects the repeat-frame path. -/
@[simp] abbrev repeatLen : Nat := 2

/-- DATA_BITS (R4): data symbols in a normal frame. -/
@[simp] abbrev dataBits : Nat := 32

/-- The parameters of R5, in its order. A duration is in ticks of 1 microsecond (R4). The command
table is R5's partial map from key to label id, sparse, keys strictly rising (log 24). -/
structure Config where
  durW             : Nat
  tLeadH           : Nat
  tLeadL           : Nat
  tZeroH           : Nat
  tZeroL           : Nat
  tOneH            : Nat
  tOneL            : Nat
  tRepH            : Nat
  tRepL            : Nat
  margin           : Nat
  qdepth           : Nat
  bufDepth         : Nat
  cmdTable         : List (BitVec 8 × BitVec 8)
  rearmRetries     : Nat
  postWhenDisarmed : Bool
  rxTimeoutMs      : Nat
deriving DecidableEq, Repr

namespace Config

/-- The default column of R5. PRESUMED by the spec itself (its GK marks, G1 to G4); log 22. -/
def specDefault : Config where
  durW := 15
  tLeadH := 9000
  tLeadL := 4500
  tZeroH := 560
  tZeroL := 560
  tOneH := 560
  tOneL := 1690
  tRepH := 9000
  tRepL := 2250
  margin := 200
  qdepth := 2
  bufDepth := 64
  cmdTable := [(0xBA#8, 0x01#8)]
  rearmRetries := 0
  postWhenDisarmed := false
  rxTimeoutMs := 1000

/-- Free value: the transaction some agent makes when the script of the run is used up. The arm
answer, the front end's posts, the timer's expiry and the order of the agents are draws
(I9, I10, I11, R201). Log 2. -/
opaque freeXact : Nat → Xact

/-- Free value: SR after an atomic DECODE of a count-34 event (R33, I21). Log 9. -/
opaque freeSr : Nat → BitVec 32

/-- Free value within its bound: BITCNT after such a DECODE (R33, I21; 0 to 32 by R31). Log 9. -/
opaque freeBitCnt : Nat → Fin 33

/-- Free value within its bound: IDX after such a DECODE (R33, I21; 0 to 33 by R32). Log 9. -/
opaque freeIdx : Nat → Fin 34

/-- Free value: what st_qlen reads for a queue whose length its 16 bits do not hold; R37 and R5 do
not say. Log 26. -/
opaque freeQlen : Nat → BitVec 16

end Config

end Sys2Proof
end

