-- ==== Sys2Proof/Syntax.lean ====
section
/-! DEFINITION. Reception events, outcome fields, and the one inductive of operations: one
constructor per row of spec/opcode_table.json, in the table's order. -/

namespace Sys2Proof

/-- A reception event (R51): the count its header states and its symbol words in reception order. -/
structure Event where
  count : Nat
  sym   : List SymW
deriving DecidableEq, Repr, Inhabited

/-- The fields of an outcome word beside CODE (R73). -/
structure OutFields where
  lv     : Bool
  mapped : Bool
  label  : BitVec 8
  addr   : BitVec 16
  cmd    : BitVec 16
  count  : BitVec 16
deriving DecidableEq, Repr, Inhabited

/-- The operations of the block (R81) and the words on its interfaces. Operands are those the
operation's rule lists; results are no operands. -/
inductive Instr where
  | symbol (w : SymW)                       -- SYMBOL, R70
  | post (e : Event)                        -- POST, R194
  | inRange (measured nominal : Nat)        -- IN_RANGE, R100
  | pairMatchLead (w : SymW)                -- PAIR_MATCH.LEAD, R103
  | pairMatchZero (w : SymW)                -- PAIR_MATCH.ZERO, R103
  | pairMatchOne (w : SymW)                 -- PAIR_MATCH.ONE, R103
  | pairMatchRep (w : SymW)                 -- PAIR_MATCH.REP, R103
  | classifyBit (w : SymW)                  -- CLASSIFY_BIT, R104
  | checkLeading (w : SymW)                 -- CHECK_LEADING, R106
  | checkRepeat (w : SymW)                  -- CHECK_REPEAT, R107
  | dispatch (e : Event)                    -- DISPATCH, R160
  | parse (e : Event)                       -- PARSE, R130
  | repeatp (e : Event)                     -- REPEATP, R168
  | unknownFramePath (e : Event)            -- UNKNOWN_FRAME_PATH, R170
  | lookup (key : BitVec 8)                 -- LOOKUP, R163
  | armOk                                   -- ARM_OK, R191
  | armFail                                 -- ARM_FAIL, R192
  | dequeue                                 -- DEQUEUE, R195
  | timeout                                 -- TIMEOUT, R196
  | decode                                  -- DECODE, R197
  | pstep                                   -- PSTEP, R139
  | reset                                   -- RESET, R260
  | outKey (f : OutFields)                  -- OUT_KEY, R164
  | outUnmappedKey (f : OutFields)          -- OUT_UNMAPPED_KEY, R165
  | outBadLeading (f : OutFields)           -- OUT_BAD_LEADING, R166
  | outBadBit (f : OutFields)               -- OUT_BAD_BIT, R167
  | outRepeat (f : OutFields)               -- OUT_REPEAT, R168
  | outNotRepeat (f : OutFields)            -- OUT_NOT_REPEAT, R169
  | outUnknownFrame (f : OutFields)         -- OUT_UNKNOWN_FRAME, R170
deriving DecidableEq, Repr, Inhabited

end Sys2Proof
end

