-- ==== Sys2Proof/WellFormed.lean ====
section
/-! DEFINITION. Which terms of the syntax stand for words: the checks an interface word passes
that no type of Syntax.lean holds. What depends on the configuration (COUNT against BUF_DEPTH, R51)
is checked where the operation runs. -/

namespace Sys2Proof

/-- COUNT fits its 16-bit header field and is the number of words that follow (R51, R76). -/
def Event.fitsHeader (e : Event) : Bool :=
  e.count < 65536 && e.count == e.sym.length

/-- No reserved combination of outcome fields (R75): LABEL only with MAPPED, ADDR and CMD only
with LV. -/
def OutFields.legal (f : OutFields) : Bool :=
  (f.mapped || f.label == 0#8) && (f.lv || (f.addr == 0#16 && f.cmd == 0#16))

/-- A term that some transaction encodes. -/
def Instr.wf : Instr → Bool
  | .symbol _ => true
  | .post e => e.fitsHeader
  | .inRange measured _ => measured < 32768
  | .pairMatchLead _ => true
  | .pairMatchZero _ => true
  | .pairMatchOne _ => true
  | .pairMatchRep _ => true
  | .classifyBit _ => true
  | .checkLeading _ => true
  | .checkRepeat _ => true
  | .dispatch e => e.fitsHeader
  | .parse e => e.fitsHeader && e.count == normalLen
  | .repeatp e => e.fitsHeader && e.count == repeatLen
  | .unknownFramePath e => e.fitsHeader && e.count != normalLen && e.count != repeatLen
  | .lookup _ => true
  | .armOk => true
  | .armFail => true
  | .dequeue => true
  | .timeout => true
  | .decode => true
  | .pstep => true
  | .reset => true
  | .outKey f => f.legal
  | .outUnmappedKey f => f.legal
  | .outBadLeading f => f.legal
  | .outBadBit f => f.legal
  | .outRepeat f => f.legal
  | .outNotRepeat f => f.legal
  | .outUnknownFrame f => f.legal

end Sys2Proof
end

