-- ==== Sys2Proof/Decode.lean ====
section
/-! DEFINITION. Decoding: from a transaction to an operation, total, every refusal by name. Then
the encoder, from the same formats (spec/30_encoding.md), and the numbering of the opcode table. -/

namespace Sys2Proof

/-- Why a transaction stands for no operation. Raised by the decoder; every one is safe (the model
stops where no interface carries such a word). -/
inductive DecodeError where
  /-- Not as many words as the unit's format has (R82). -/
  | wrongWordCount (p : Port)
  /-- A word has bits beyond its format's width (R8, R82). -/
  | wordTooWide (p : Port)
  /-- Bits 31:16 of an event header are not zero (R76, I18). -/
  | reservedHeaderBits
  /-- COUNT is not the number of symbol words that follow (R51, I13). -/
  | eventLengthMismatch
  /-- The selector word matches no row of this unit (R81). -/
  | noSuchSelector (p : Port)
  /-- CTLSEL bits 2:0 hold a reserved STATE encoding (R77, I17). -/
  | reservedState
  /-- CODE is 0x0 or 0x8 to 0xF (R75, I16). -/
  | reservedOutcomeCode
  /-- Bits 7:6 of an outcome word are not zero (R75, I16). -/
  | reservedOutcomeBits
  /-- LABEL is not zero and MAPPED is 0 (R75, I16). -/
  | labelWithoutHit
  /-- ADDR or CMD is not zero and LV is 0 (R75, I16). -/
  | pairWithoutLv
deriving DecidableEq, Repr

/-! ## Word formats -/

/-- A natural as a symbol word, when it has 32 bits (R70; every 32-bit value is legal, R72). -/
def symWord? (n : Nat) : Option SymW :=
  if n < 4294967296 then some (BitVec.ofNat 32 n) else none

/-- A list of naturals as symbol words. -/
def symWords? : List Nat → Option (List SymW)
  | [] => some []
  | n :: ns =>
    match symWord? n, symWords? ns with
    | some w, some ws => some (w :: ws)
    | _, _ => none

/-- A reception event from its words (R76): a header, COUNT in bits 15:0 and zero above, then as
many symbol words as COUNT says (R51, R82). -/
def decodeEvent (p : Port) : List Nat → Except DecodeError Event
  | [] => .error (.wrongWordCount p)
  | h :: ws =>
    if 4294967296 ≤ h then .error (.wordTooWide p)
    else if 65536 ≤ h then .error .reservedHeaderBits
    else
      match symWords? ws with
      | none => .error (.wordTooWide p)
      | some ss => if ss.length = h then .ok ⟨h, ss⟩ else .error .eventLengthMismatch

/-- The words of an event (R76). -/
def encodeEvent (e : Event) : List Nat :=
  e.count :: e.sym.map BitVec.toNat

/-- The outcome word (R73): the fields COUNT, CMD, ADDR, LABEL, two zero bits, MAPPED, LV, CODE,
the first most significant. -/
def mkOutcome (code : BitVec 4) (f : OutFields) : OutW :=
  f.count ++ f.cmd ++ f.addr ++ f.label ++ 0#2 ++ BitVec.ofBool f.mapped ++ BitVec.ofBool f.lv
    ++ code

/-- CODE, bits 3:0 of an outcome word. -/
def outCode (w : OutW) : BitVec 4 := w.extractLsb' 0 4

/-- The reserved bits 7:6 of an outcome word. -/
def outReserved (w : OutW) : BitVec 2 := w.extractLsb' 6 2

/-- The other fields of an outcome word, at the bit positions of R73. -/
def outFields (w : OutW) : OutFields where
  lv := w.getLsbD 4
  mapped := w.getLsbD 5
  label := w.extractLsb' 8 8
  addr := w.extractLsb' 16 16
  cmd := w.extractLsb' 32 16
  count := w.extractLsb' 48 16

/-- The operation an outcome word names by its CODE (R74), once R75 has refused the reserved words. -/
def decodeOutcome (w : OutW) : Except DecodeError Instr :=
  let f := outFields w
  if outReserved w ≠ 0#2 then .error .reservedOutcomeBits
  else if f.mapped = false ∧ f.label ≠ 0#8 then .error .labelWithoutHit
  else if f.lv = false ∧ (f.addr ≠ 0#16 ∨ f.cmd ≠ 0#16) then .error .pairWithoutLv
  else
    match (outCode w).toNat with
    | 1 => .ok (.outKey f)
    | 2 => .ok (.outUnmappedKey f)
    | 3 => .ok (.outBadLeading f)
    | 4 => .ok (.outBadBit f)
    | 5 => .ok (.outRepeat f)
    | 6 => .ok (.outNotRepeat f)
    | 7 => .ok (.outUnknownFrame f)
    | _ => .error .reservedOutcomeCode

/-- A command-table entry word (R79): HIT in bit 8, LABEL in bits 7:0, LABEL zero when HIT is 0. -/
def mkEntry (label? : Option (BitVec 8)) : EntryW :=
  match label? with
  | some l => BitVec.ofBool true ++ l
  | none => BitVec.ofBool false ++ 0#8

/-- HIT of an entry word (R79). -/
def entryHit (w : EntryW) : Bool := w.getLsbD 8

/-- LABEL of an entry word (R79). -/
def entryLabel (w : EntryW) : BitVec 8 := w.extractLsb' 0 8

/-- R79: an absent entry has LABEL zero. -/
def entryLegal (w : EntryW) : Bool := entryHit w || entryLabel w == 0#8

/-! ## The units -/

/-- A unit that reads one symbol word. -/
def decodeSymbolIn : List Nat → Except DecodeError Instr
  | [n] =>
    match symWord? n with
    | some w => .ok (.symbol w)
    | none => .error (.wordTooWide .symbolIn)
  | _ => .error (.wrongWordCount .symbolIn)

/-- IN_RANGE has no selector (R100): its two operands, a 15-bit duration and a natural. -/
def decodeWindow : List Nat → Except DecodeError Instr
  | [m, n] => if m < 32768 then .ok (.inRange m n) else .error (.wordTooWide .window)
  | _ => .error (.wrongWordCount .window)

/-- A unit selected by a 2-bit REFSEL (R80) and given a symbol word. -/
def decodeRefSel (p : Port) (pick : Nat → SymW → Option Instr) : List Nat → Except DecodeError Instr
  | [sel, n] =>
    match symWord? n with
    | none => .error (.wordTooWide p)
    | some w =>
      match pick sel w with
      | some i => .ok i
      | none => .error (.noSuchSelector p)
  | _ => .error (.wrongWordCount p)

/-- PAIR_MATCH by REFSEL (R80, R103). -/
def pickPair : Nat → SymW → Option Instr
  | 0, w => some (.pairMatchLead w)
  | 1, w => some (.pairMatchZero w)
  | 2, w => some (.pairMatchOne w)
  | 3, w => some (.pairMatchRep w)
  | _, _ => none

/-- CLASSIFY_BIT: the table's row has bit 1 of REFSEL set and leaves bit 0 open. Log 20. -/
def pickClassify : Nat → SymW → Option Instr
  | 2, w => some (.classifyBit w)
  | 3, w => some (.classifyBit w)
  | _, _ => none

/-- CHECK_LEADING: REFSEL 0b00 (R106). -/
def pickLeading : Nat → SymW → Option Instr
  | 0, w => some (.checkLeading w)
  | _, _ => none

/-- CHECK_REPEAT: REFSEL 0b11 (R107). -/
def pickRepeat : Nat → SymW → Option Instr
  | 3, w => some (.checkRepeat w)
  | _, _ => none

/-- The path COUNT selects (R160): PARSE for 34, REPEATP for 2, UNKNOWN_FRAME_PATH for every other. -/
def pickPath (e : Event) : Instr :=
  if e.count = normalLen then .parse e
  else if e.count = repeatLen then .repeatp e
  else .unknownFramePath e

/-- LOOKUP: an 8-bit key (R163). -/
def decodeTable : List Nat → Except DecodeError Instr
  | [k] => if k < 256 then .ok (.lookup (BitVec.ofNat 8 k)) else .error (.wordTooWide .cmdTable)
  | _ => .error (.wrongWordCount .cmdTable)

/-- A controller step by its 6-bit CTLSEL (R81): bits 2:0 STATE, bit 3 arm_resp, bit 4 whether QUEUE
holds an event, bit 5 tmo, matched under the table's masks. No selector with STATE = FAULT matches,
and a reserved STATE encoding is refused (R77). -/
def decodeControl : List Nat → Except DecodeError Instr
  | [w] =>
    if 64 ≤ w then .error (.wordTooWide .controller)
    else if w % 8 = 3 ∨ w % 8 = 4 ∨ w % 8 = 5 ∨ w % 8 = 6 then .error .reservedState
    else if w &&& 0x0F = 0x08 then .ok .armOk
    else if w &&& 0x0F = 0x00 then .ok .armFail
    else if w &&& 0x17 = 0x11 then .ok .dequeue
    else if w &&& 0x37 = 0x21 then .ok .timeout
    else if w &&& 0x07 = 0x02 then .ok .decode
    else .error (.noSuchSelector .controller)
  | _ => .error (.wrongWordCount .controller)

/-- PSTEP by its CTLSEL (R81): STATE = DECODE. -/
def decodeSequencer : List Nat → Except DecodeError Instr
  | [w] =>
    if 64 ≤ w then .error (.wordTooWide .sequencer)
    else if w &&& 0x07 = 0x02 then .ok .pstep
    else .error (.noSuchSelector .sequencer)
  | _ => .error (.wrongWordCount .sequencer)

/-- RESET: input rst, one bit (R260). -/
def decodeRst : List Nat → Except DecodeError Instr
  | [w] =>
    if 2 ≤ w then .error (.wordTooWide .rst)
    else if w = 1 then .ok .reset
    else .error (.noSuchSelector .rst)
  | _ => .error (.wrongWordCount .rst)

/-- An outcome word at the outcome port (R73). -/
def decodeOut : List Nat → Except DecodeError Instr
  | [n] =>
    if n < 18446744073709551616 then decodeOutcome (BitVec.ofNat 64 n)
    else .error (.wordTooWide .out)
  | _ => .error (.wrongWordCount .out)

/-- The operation a transaction stands for, or why it stands for none. -/
def decodeXact (x : Xact) : Except DecodeError Instr :=
  match x.port with
  | .symbolIn => decodeSymbolIn x.words
  | .fePost => (decodeEvent .fePost x.words).map .post
  | .window => decodeWindow x.words
  | .comparator => decodeRefSel .comparator pickPair x.words
  | .bitClassifier => decodeRefSel .bitClassifier pickClassify x.words
  | .leadingCheck => decodeRefSel .leadingCheck pickLeading x.words
  | .repeatCheck => decodeRefSel .repeatCheck pickRepeat x.words
  | .dispatcher => (decodeEvent .dispatcher x.words).map .dispatch
  | .framePath => (decodeEvent .framePath x.words).map pickPath
  | .cmdTable => decodeTable x.words
  | .controller => decodeControl x.words
  | .sequencer => decodeSequencer x.words
  | .rst => decodeRst x.words
  | .out => decodeOut x.words

/-! ## The encoder -/

/-- The transaction of an operation. Bits the table's masks leave open are zero (log 21). -/
def encode : Instr → Xact
  | .symbol w => ⟨.symbolIn, [w.toNat]⟩
  | .post e => ⟨.fePost, encodeEvent e⟩
  | .inRange measured nominal => ⟨.window, [measured, nominal]⟩
  | .pairMatchLead w => ⟨.comparator, [0x0, w.toNat]⟩
  | .pairMatchZero w => ⟨.comparator, [0x1, w.toNat]⟩
  | .pairMatchOne w => ⟨.comparator, [0x2, w.toNat]⟩
  | .pairMatchRep w => ⟨.comparator, [0x3, w.toNat]⟩
  | .classifyBit w => ⟨.bitClassifier, [0x2, w.toNat]⟩
  | .checkLeading w => ⟨.leadingCheck, [0x0, w.toNat]⟩
  | .checkRepeat w => ⟨.repeatCheck, [0x3, w.toNat]⟩
  | .dispatch e => ⟨.dispatcher, encodeEvent e⟩
  | .parse e => ⟨.framePath, encodeEvent e⟩
  | .repeatp e => ⟨.framePath, encodeEvent e⟩
  | .unknownFramePath e => ⟨.framePath, encodeEvent e⟩
  | .lookup key => ⟨.cmdTable, [key.toNat]⟩
  | .armOk => ⟨.controller, [0x08]⟩
  | .armFail => ⟨.controller, [0x00]⟩
  | .dequeue => ⟨.controller, [0x11]⟩
  | .timeout => ⟨.controller, [0x21]⟩
  | .decode => ⟨.controller, [0x02]⟩
  | .pstep => ⟨.sequencer, [0x02]⟩
  | .reset => ⟨.rst, [0x1]⟩
  | .outKey f => ⟨.out, [(mkOutcome 0x1#4 f).toNat]⟩
  | .outUnmappedKey f => ⟨.out, [(mkOutcome 0x2#4 f).toNat]⟩
  | .outBadLeading f => ⟨.out, [(mkOutcome 0x3#4 f).toNat]⟩
  | .outBadBit f => ⟨.out, [(mkOutcome 0x4#4 f).toNat]⟩
  | .outRepeat f => ⟨.out, [(mkOutcome 0x5#4 f).toNat]⟩
  | .outNotRepeat f => ⟨.out, [(mkOutcome 0x6#4 f).toNat]⟩
  | .outUnknownFrame f => ⟨.out, [(mkOutcome 0x7#4 f).toNat]⟩

/-! ## The opcode table's numbering -/

/-- The transaction of an 8-bit table word. Rows of different units share these words; the steps of
R81 come first (CTLSEL, then RST), then the comparator's selectors. Log 18. -/
def tableXact8 (w : Nat) : Xact :=
  match decodeControl [w] with
  | .ok _ => ⟨.controller, [w]⟩
  | .error _ =>
    if w = 1 then ⟨.rst, [1]⟩
    else if w < 4 then ⟨.comparator, [w, 0]⟩
    else ⟨.controller, [w]⟩

/-- The transaction of a table word of `nbits` bits, operand words zero. Log 18. -/
def tableXact (nbits w : Nat) : Xact :=
  if nbits = 64 then ⟨.out, [w]⟩
  else if nbits = 32 then
    if w = normalLen ∨ w = repeatLen then ⟨.framePath, w :: List.replicate w 0⟩
    else if w < 65536 then ⟨.fePost, w :: List.replicate w 0⟩
    else ⟨.symbolIn, [w]⟩
  else if nbits = 16 ∨ nbits = 9 then
    if w < 512 ∧ entryLegal (BitVec.ofNat 9 w) then ⟨.cmdTable, [0]⟩ else ⟨.cmdTable, []⟩
  else if nbits = 0 then ⟨.window, [0, 0]⟩
  else tableXact8 w

/-- The operation the decoder reads from a word numbered as spec/opcode_table.json numbers it. -/
def decodeTableWord (nbits w : Nat) : Option Instr :=
  match decodeXact (tableXact nbits w) with
  | .ok i => some i
  | .error _ => none

end Sys2Proof
end

