-- ==== Sys2Proof/Machine/State.lean ====
section
/-! DEFINITION. The state of the block (spec/10_state.md R20 to R33) and the model's own fields
beside it, the values units compute, why a step may stop, and the state right after reset (R42). -/

namespace Sys2Proof.Machine

/-- STATE (R21). "a model's state type has exactly the four legal constructors" (R77). -/
inductive Fsm where
  | arm
  | wait
  | decode
  | fault
deriving DecidableEq, Repr, Inhabited

/-- The result of bit classification (R104). -/
inductive BitClass where
  | zero
  | one
  | invalid
deriving DecidableEq, Repr, Inhabited

/-- The result of PARSE (R130). -/
inductive ParseResult where
  | ok (addr cmd : BitVec 16)
  | badLeading
  | badBit
deriving DecidableEq, Repr, Inhabited

/-- The result of DISPATCH (R160): one outcome word and the new last decoded pair. -/
structure Dispatched where
  word      : OutW
  lastAddr  : BitVec 16
  lastCmd   : BitVec 16
  lastValid : Bool
deriving DecidableEq, Repr, Inhabited

/-- What a combinational unit drives. DESIGN CHOICE, log 5; safe: no operation reads it. -/
inductive Comb where
  | idle
  | durations (high low : Nat)              -- SYMBOL: dur0 and dur1 (R71)
  | flag (b : Bool)                         -- IN_RANGE, PAIR_MATCH, CHECK_LEADING, CHECK_REPEAT
  | bitClass (c : BitClass)                 -- CLASSIFY_BIT
  | parsed (r : ParseResult)                -- PARSE
  | entry (hit : Bool) (label : BitVec 8)   -- LOOKUP
  | dispatched (d : Dispatched)             -- DISPATCH and its paths
deriving DecidableEq, Repr, Inhabited

/-- Why the machine stops with a fault. -/
inductive Fault where
  /-- A symbol read at or beyond the event's count. R52: "A model that meets such a read anyway
  faults it as an internal error, because the rules never produce one." Raised by PARSE, REPEATP,
  DISPATCH, DECODE, PSTEP and the outcome operations on a state or operand that is not well formed.
  Safe. -/
  | symReadOutOfRange
  /-- STATE = DECODE while CUR_EVT is not held, which R25 rules out. Raised by DECODE, PSTEP and the
  outcome operations. DEDUCED, log 12; safe. -/
  | curEvtNotHeld
deriving DecidableEq, Repr

/-- Why the model takes no step (R9, `refuse`). -/
inductive Refusal where
  /-- The instruction has no meaning yet. Raised by exec alone; safe. -/
  | notModelled (mnemonic : String)
  /-- The step's enabling condition does not hold in this state: "an error of the script, not a
  step" (R83). Raised by the steps of R191 to R197 and R139 and by the outcome operations. Safe. -/
  | notEnabled
  /-- The event is not well formed: COUNT above BUF_DEPTH or not the number of its words (R51, I13).
  Raised by POST and by the operations that take an event. Safe. -/
  | malformedEvent
  /-- The operation is not the one COUNT selects: PARSE is invoked only for count 34 (R130), REPEATP
  for 2 (R168), UNKNOWN_FRAME_PATH for neither (R170). Raised by these three. Safe. -/
  | wrongCount
  /-- The outcome word is not the one the block emits here (R164 to R170). Raised by the outcome
  operations. Safe; log 7. -/
  | outcomeNotEmitted
  /-- "A model refuses (takes no step from) a configuration that is not well formed" (R6, I14).
  Raised by step. Safe. -/
  | illFormedConfig
  /-- No interface carries this transaction (R75, R76, R77). Raised by step. Safe. -/
  | undecodable (e : DecodeError)
deriving DecidableEq, Repr

/-- The machine's state. The first group is the tuple of R20, the last the model's own fields. -/
structure State where
  /-- STATE (R21) -/
  fsm       : Fsm
  /-- ARMED (R22) -/
  armed     : Bool
  /-- RETRY_CNT (R23), a natural bounded by REARM_RETRIES (log 15) -/
  retryCnt  : Nat
  /-- QUEUE (R24), head first -/
  queue     : List Event
  /-- CUR_EVT (R25), none where it is not held -/
  curEvt    : Option Event
  /-- LAST_ADDR (R26) -/
  lastAddr  : BitVec 16
  /-- LAST_CMD (R27) -/
  lastCmd   : BitVec 16
  /-- LAST_VALID (R28) -/
  lastValid : Bool
  /-- SR (R30) -/
  sr        : BitVec 32
  /-- BITCNT (R31) -/
  bitCnt    : BitVec 6
  /-- IDX (R32) -/
  idx       : BitVec 16
  /-- The configuration (R5), constant in every step (R262); log 4 -/
  cfg       : Config
  /-- The observation: every outcome word emitted, oldest first (R41); log 6 -/
  out       : List OutW
  /-- What a combinational unit drove last; log 5 -/
  comb      : Comb
  /-- The transactions the agents make next, first one first (R201); log 1 -/
  stim      : List Xact
  /-- How many free values have been used; log 2, log 9 -/
  draws     : Nat
deriving DecidableEq, Repr

/-- What a meaning answers. -/
abbrev Result := Host.Outcome State Fault Refusal

/-- The state after reset (R42), in the default configuration, nothing observed and no script
loaded. -/
def State.reset : State where
  fsm := .arm
  armed := false
  retryCnt := 0
  queue := []
  curEvt := none
  lastAddr := 0x0000#16
  lastCmd := 0x0000#16
  lastValid := false
  sr := 0x0000_0000#32
  bitCnt := 0#6
  idx := 0#16
  cfg := Config.specDefault
  out := []
  comb := .idle
  stim := []
  draws := 0

end Sys2Proof.Machine
end

