-- ==== Sys2Proof/Machine/Operands.lean ====
section
/-! DEFINITION. Operand extraction and the combinational classifier (spec/40_classifier.md), the
reference pairs (R80) and the command-table read (R163). Pure functions of their operands and the
configuration (R108). -/

namespace Sys2Proof.Machine

/-! ## Symbol words (R70, R71) -/

/-- The high-phase duration, bits 14:0 (R71). -/
def dur0 (w : SymW) : Nat := (w.extractLsb' 0 15).toNat

/-- The low-phase duration, bits 30:16 (R71). -/
def dur1 (w : SymW) : Nat := (w.extractLsb' 16 15).toNat

/-- L0, bit 15: the level of the first phase (R70). Read by no rule (R71). -/
def level0 (w : SymW) : Bool := w.getLsbD 15

/-- L1, bit 31: the level of the second phase (R70). Read by no rule (R71). -/
def level1 (w : SymW) : Bool := w.getLsbD 31

/-- A symbol word from its fields (R70). -/
def mkSymbol (l1 : Bool) (d1 : BitVec 15) (l0 : Bool) (d0 : BitVec 15) : SymW :=
  BitVec.ofBool l1 ++ d1 ++ BitVec.ofBool l0 ++ d0

/-! ## The comparator (R100, R103) -/

/-- IN_RANGE (R100): both bounds exclusive, exact on naturals, no wrap-around (D6). -/
def inRange (cfg : Config) (measured nominal : Nat) : Bool :=
  measured + cfg.margin > nominal && measured < nominal + cfg.margin

/-- REFSEL (R80). -/
inductive RefSel where
  | lead
  | zero
  | one
  | rep
deriving DecidableEq, Repr

/-- REF_H: the high duration of the pair REFSEL names (R80). -/
def refH (cfg : Config) : RefSel → Nat
  | .lead => cfg.tLeadH
  | .zero => cfg.tZeroH
  | .one => cfg.tOneH
  | .rep => cfg.tRepH

/-- REF_L: the low duration of the pair REFSEL names (R80). -/
def refL (cfg : Config) : RefSel → Nat
  | .lead => cfg.tLeadL
  | .zero => cfg.tZeroL
  | .one => cfg.tOneL
  | .rep => cfg.tRepL

/-- PAIR_MATCH (R103): both halves in range. -/
def pairMatch (cfg : Config) (w : SymW) (sel : RefSel) : Bool :=
  inRange cfg (dur0 w) (refH cfg sel) && inRange cfg (dur1 w) (refL cfg sel)

/-- CLASSIFY_BIT (R104): One is tested first (D7). -/
def classifyBit (cfg : Config) (w : SymW) : BitClass :=
  if pairMatch cfg w .one then .one
  else if pairMatch cfg w .zero then .zero
  else .invalid

/-- CHECK_LEADING (R106). -/
def checkLeading (cfg : Config) (w : SymW) : Bool := pairMatch cfg w .lead

/-- CHECK_REPEAT (R107). -/
def checkRepeat (cfg : Config) (w : SymW) : Bool := pairMatch cfg w .rep

/-! ## The command table (R38, R79, R163) -/

/-- The label a sparse table gives a key. -/
def tableFind (key : BitVec 8) : List (BitVec 8 × BitVec 8) → Option (BitVec 8)
  | [] => none
  | (k, l) :: rest => if k = key then some l else tableFind key rest

/-- CMD_TABLE[key], the 9-bit entry word (R79). -/
def tableEntry (cfg : Config) (key : BitVec 8) : EntryW :=
  mkEntry (tableFind key cfg.cmdTable)

/-- LOOKUP (R163): HIT and LABEL of the entry. -/
def lookup (cfg : Config) (key : BitVec 8) : Bool × BitVec 8 :=
  (entryHit (tableEntry cfg key), entryLabel (tableEntry cfg key))

/-- KEY = CMD[15:8] (R4). -/
def cmdKey (cmd : BitVec 16) : BitVec 8 := cmd.extractLsb' 8 8

end Sys2Proof.Machine
end

