-- ==== Sys2Proof/Machine/Flags.lean ====
section
/-! DEFINITION. What is read off the state and is no state itself: the FSM encoding (R77), the status
outputs (R37), the selector CTLSEL (R81), and when a step is enabled. The block has no condition
codes (R36). -/

namespace Sys2Proof.Machine

/-- The 3-bit encoding of STATE (R77). -/
def fsmCode : Fsm → BitVec 3
  | .arm => 0b000#3
  | .wait => 0b001#3
  | .decode => 0b010#3
  | .fault => 0b111#3

/-- STATE from a value read on st_state; a reserved value is refused (R77). -/
def fsmOfCode (c : BitVec 3) : Except DecodeError Fsm :=
  match c.toNat with
  | 0 => .ok .arm
  | 1 => .ok .wait
  | 2 => .ok .decode
  | 7 => .ok .fault
  | _ => .error .reservedState

/-! ## Status outputs (R37) -/

def stState (s : State) : BitVec 3 := fsmCode s.fsm

def stFault (s : State) : Bool := s.fsm == .fault

def stArmed (s : State) : Bool := s.armed

/-- st_qlen: len(QUEUE). DESIGN CHOICE, log 26; safe: QDEPTH has no upper bound (R5), and for 65536 or
more queued events the spec does not say what the 16-bit output reads: a free value. -/
def stQlen (s : State) : BitVec 16 :=
  if s.queue.length < 65536 then BitVec.ofNat 16 s.queue.length
  else Config.freeQlen s.queue.length

def stLastValid (s : State) : Bool := s.lastValid

def stLastAddr (s : State) : BitVec 16 := s.lastAddr

def stLastCmd (s : State) : BitVec 16 := s.lastCmd

/-! ## The controller's selector (R81) -/

/-- CTLSEL: bits 2:0 STATE, bit 3 arm_resp, bit 4 whether QUEUE holds an event, bit 5 tmo. "It is a
view of existing state and inputs, not a register." -/
def ctlsel (s : State) (armResp tmo : Bool) : BitVec 6 :=
  BitVec.ofBool tmo ++ BitVec.ofBool (!s.queue.isEmpty) ++ BitVec.ofBool armResp ++ fsmCode s.fsm

/-- The bounded-wait timer runs only while STATE = WAIT and QUEUE is empty (R239). -/
def timerRuns (s : State) : Bool := s.fsm == .wait && s.queue.isEmpty

/-- The front end may post (R193 (a)). -/
def postAllowed (s : State) : Bool := s.armed || s.cfg.postWhenDisarmed

/-- The sequential parse of CUR_EVT is not finished (R139): a symbol of the 33 is still to be read
and fewer than 32 bits are in SR. DEDUCED, log 10. -/
def parseRunning (s : State) : Bool := s.idx.toNat ≤ 32 && s.bitCnt.toNat < 32

end Sys2Proof.Machine
end

