-- ==== Sys2Proof/Machine/Ops.lean ====
section
/-! DEFINITION. The shared operations: configuration and event checks, symbol reads and the queue,
PARSE and DISPATCH as functions, and the named updates of the state (the writes each rule lists),
among them entering FAULT (R233) and leaving it by RESET (R260). -/

namespace Sys2Proof.Machine

/-! ## Configuration (R5, R6) -/

/-- The distance of two naturals. -/
def absDiff (a b : Nat) : Nat := (a - b) + (b - a)

/-- R6 in its decidable form: the high windows or the low windows of logic-0 and logic-1 are
disjoint. -/
def windowsDisjoint (cfg : Config) : Bool :=
  absDiff cfg.tZeroH cfg.tOneH ≥ 2 * cfg.margin - 1
    || absDiff cfg.tZeroL cfg.tOneL ≥ 2 * cfg.margin - 1

/-- The sparse table's canonical form: keys strictly rising (log 24). -/
def keysRising : List (BitVec 8 × BitVec 8) → Bool
  | [] => true
  | [_] => true
  | a :: b :: rest => a.1.toNat < b.1.toNat && keysRising (b :: rest)

/-- A well-formed configuration: R6, and the constraint column of R5 (log 13). -/
def configOk (cfg : Config) : Bool :=
  1 ≤ cfg.margin && windowsDisjoint cfg
    && 1 ≤ cfg.durW && cfg.durW ≤ 15
    && 2 ≤ cfg.qdepth
    && normalLen ≤ cfg.bufDepth && cfg.bufDepth ≤ 65535
    && 0 < cfg.rxTimeoutMs
    && keysRising cfg.cmdTable

/-- The state right after reset in a configuration fixed before reset is released (R262, R263). -/
def State.powerOn (cfg : Config) : State := { State.reset with cfg := cfg }

/-! ## Events and the queue (R51, R52, R55) -/

/-- A well-formed event (R51): COUNT at most BUF_DEPTH, and exactly COUNT words. -/
def eventOk (cfg : Config) (e : Event) : Bool :=
  e.count ≤ cfg.bufDepth && e.count == e.sym.length

/-- SymRead(e, i) (R52), defined only for i < e.count. -/
def symRead (e : Event) (i : Nat) : Option SymW :=
  if i < e.count then e.sym[i]? else none

/-- Enqueue (R55): at the tail, and the new event is the one dropped when the queue is full. -/
def enqueue (cfg : Config) (q : List Event) (e : Event) : List Event :=
  if q.length < cfg.qdepth then q ++ [e] else q

/-- Dequeue (R55): the head and the rest, of a non-empty queue. -/
def dequeue : List Event → Option (Event × List Event)
  | [] => none
  | e :: q => some (e, q)

/-! ## PARSE, functional form (R130 to R138) -/

/-- Classify the symbols `i`, `i + 1`, … of an event, `n` of them (R132). None: a read out of range. -/
def classifyFrom (cfg : Config) (e : Event) : Nat → Nat → Option (List BitClass)
  | _, 0 => some []
  | i, n + 1 =>
    match symRead e i, classifyFrom cfg e (i + 1) n with
    | some w, some cs => some (classifyBit cfg w :: cs)
    | _, _ => none

/-- The sum over i of 2^i where bit i is One: least significant bit first (R134, R135). -/
def assemble : List BitClass → Nat
  | [] => 0
  | c :: cs => (if c = .one then 1 else 0) + 2 * assemble cs

/-- PARSE on the 32 classified data symbols (R133 to R135). -/
def parseBits (cs : List BitClass) : ParseResult :=
  if cs.contains .invalid then .badBit
  else .ok (BitVec.ofNat 16 (assemble (cs.take 16))) (BitVec.ofNat 16 (assemble (cs.drop 16)))

/-- PARSE (R130): the leading code first (R131), then data symbols 1 to 32 (R132). Symbol 33 is not
read (R137) and nothing else is checked (R138). None: a read out of range. -/
def parse (cfg : Config) (e : Event) : Option ParseResult :=
  match symRead e 0 with
  | none => none
  | some w0 =>
    if checkLeading cfg w0 then (classifyFrom cfg e 1 dataBits).map parseBits
    else some .badLeading

/-! ## DISPATCH (R160 to R173) -/

/-- COUNT as the outcome word holds it (R73). -/
def countField (n : Nat) : BitVec 16 := BitVec.ofNat 16 n

/-- An outcome that carries nothing but COUNT and leaves the last pair alone (R166, R167, R169,
R170). -/
def plainOutcome (code : BitVec 4) (n : Nat) (la lc : BitVec 16) (lv : Bool) : Dispatched where
  word := mkOutcome code
    { lv := false, mapped := false, label := 0#8, addr := 0#16, cmd := 0#16, count := countField n }
  lastAddr := la
  lastCmd := lc
  lastValid := lv

/-- NORMAL after PARSE (R161): the outcome of each parse result and the new last pair (R162). -/
def normalOutcome (cfg : Config) (r : ParseResult) (la lc : BitVec 16) (lv : Bool) : Dispatched :=
  match r with
  | .ok a c =>
    let (hit, lab) := lookup cfg (cmdKey c)
    { word :=
        if hit then mkOutcome 0x1#4
          { lv := true, mapped := true, label := lab, addr := a, cmd := c,
            count := countField normalLen }
        else mkOutcome 0x2#4
          { lv := true, mapped := false, label := 0#8, addr := a, cmd := c,
            count := countField normalLen }
      lastAddr := a
      lastCmd := c
      lastValid := true }
  | .badLeading => plainOutcome 0x3#4 normalLen la lc lv
  | .badBit => plainOutcome 0x4#4 normalLen la lc lv

/-- REPEATP after CHECK_REPEAT (R168, R169). -/
def repeatOutcome (cfg : Config) (isRepeat : Bool) (la lc : BitVec 16) (lv : Bool) : Dispatched :=
  if isRepeat then
    if lv then
      let (hit, lab) := lookup cfg (cmdKey lc)
      { word := mkOutcome 0x5#4
          { lv := true, mapped := hit, label := if hit then lab else 0#8, addr := la, cmd := lc,
            count := countField repeatLen }
        lastAddr := la
        lastCmd := lc
        lastValid := lv }
    else plainOutcome 0x5#4 repeatLen la lc lv
  else plainOutcome 0x6#4 repeatLen la lc lv

/-- REPEATP (R168): symbol 0 alone is read. None: a read out of range. -/
def repeatPath (cfg : Config) (e : Event) (la lc : BitVec 16) (lv : Bool) : Option Dispatched :=
  (symRead e 0).map fun w => repeatOutcome cfg (checkRepeat cfg w) la lc lv

/-- The path of every other length (R170): no symbol is read. -/
def unknownPath (e : Event) (la lc : BitVec 16) (lv : Bool) : Dispatched :=
  plainOutcome 0x7#4 e.count la lc lv

/-- DISPATCH (R160): the length validator. None: a read out of range. -/
def dispatch (cfg : Config) (e : Event) (la lc : BitVec 16) (lv : Bool) : Option Dispatched :=
  if e.count = normalLen then (parse cfg e).map fun r => normalOutcome cfg r la lc lv
  else if e.count = repeatLen then repeatPath cfg e la lc lv
  else some (unknownPath e la lc lv)

/-- DISPATCH of an event with the state's last pair, as DECODE applies it (R197). -/
def State.dispatchOf (s : State) (e : Event) : Option Dispatched :=
  dispatch s.cfg e s.lastAddr s.lastCmd s.lastValid

/-! ## Named updates -/

/-- A combinational unit drives its result (R108: nothing else changes). Log 5. -/
def State.drive (s : State) (c : Comb) : State := { s with comb := c }

/-- The writes of ARM_OK (R191). -/
def State.armDone (s : State) : State := { s with armed := true, retryCnt := 0, fsm := .wait }

/-- The writes of an ARM_FAIL with a retry left (R192). -/
def State.retryArm (s : State) : State := { s with retryCnt := s.retryCnt + 1, fsm := .arm }

/-- Entering FAULT (R233), the nearest thing the block has to taking an exception (R236): STATE alone
changes, nothing is saved, no vector. -/
def State.enterFault (s : State) : State := { s with fsm := .fault }

/-- The way out of FAULT, and of every other state (R260): the registers of R42 at their reset
values; the configuration (R262) and the words already emitted (R41) stay, as do the model's own
fields. -/
def State.resetRegs (s : State) : State :=
  { s with
    fsm := .arm, armed := false, retryCnt := 0, queue := [], curEvt := none
    lastAddr := 0x0000#16, lastCmd := 0x0000#16, lastValid := false
    sr := 0x0000_0000#32, bitCnt := 0#6, idx := 0#16 }

/-- The writes of POST (R194). -/
def State.posted (s : State) (e : Event) : State :=
  { s with armed := false, queue := enqueue s.cfg s.queue e }

/-- The parser's start (R141). -/
def State.parserInit (s : State) : State :=
  { s with sr := 0x0000_0000#32, bitCnt := 0#6, idx := 0#16 }

/-- The writes of DEQUEUE (R195) but the parser's start. -/
def State.taken (s : State) (e : Event) (rest : List Event) : State :=
  { s with curEvt := some e, queue := rest, fsm := .decode }

/-- The writes of a micro-step that goes on (R139). -/
def State.shifted (s : State) (sr : BitVec 32) (bitCnt : BitVec 6) (idx : BitVec 16) : State :=
  { s with sr := sr, bitCnt := bitCnt, idx := idx }

/-- The writes of DECODE (R197): the word is emitted (R205), the last pair written, CUR_EVT given up
and the controller back in ARM (R198). -/
def State.emitted (s : State) (d : Dispatched) : State :=
  { s with
    out := s.out ++ [d.word]
    lastAddr := d.lastAddr, lastCmd := d.lastCmd, lastValid := d.lastValid
    curEvt := none, fsm := .arm }

/-- SR, BITCNT and IDX after the atomic form has parsed a frame: unspecified (R33, I21), so free
values within their bounds. Log 9. -/
def State.parserFree (s : State) : State :=
  { s with
    sr := Config.freeSr s.draws
    bitCnt := BitVec.ofNat 6 (Config.freeBitCnt s.draws).val
    idx := BitVec.ofNat 16 (Config.freeIdx s.draws).val
    draws := s.draws + 1 }

/-- The parser's registers after DECODE: open only when a count-34 event was parsed. -/
def State.afterParse (s : State) (e : Event) : State :=
  if e.count = normalLen then s.parserFree else s

/-! ## The outcome of the event being decoded -/

/-- DISPATCH of CUR_EVT, then `k`; stops where DECODE is not enabled or an internal error is met. -/
def withDispatched (s : State) (k : Event → Dispatched → Result) : Result :=
  if s.fsm = .decode then
    match s.curEvt with
    | none => .fault .curEvtNotHeld
    | some e =>
      match s.dispatchOf e with
      | none => .fault .symReadOutOfRange
      | some d => k e d
  else .refused .notEnabled

/-- The DECODE step (R197). -/
def decodeStep (s : State) : Result :=
  withDispatched s fun e d => .next ((s.emitted d).afterParse e)

/-- The DECODE step seen at the outcome port: taken when the word it emits is `w` (R164 to R170).
Log 7. -/
def emitStep (w : OutW) (s : State) : Result :=
  withDispatched s fun e d =>
    if d.word = w then .next ((s.emitted d).afterParse e) else .refused .outcomeNotEmitted

/-- A micro-step that ends the parse (R139, R197): the dispatcher's normal-frame path takes the
result in the same micro-step. -/
def finishParse (s : State) (r : ParseResult) : Result :=
  .next (s.emitted (normalOutcome s.cfg r s.lastAddr s.lastCmd s.lastValid))

/-- An operation that takes an event of the lengths `p` allows. -/
def withEvent (s : State) (e : Event) (p : Nat → Bool) (k : Option Comb) : Result :=
  if eventOk s.cfg e then
    if p e.count then
      match k with
      | some c => .next (s.drive c)
      | none => .fault .symReadOutOfRange
    else .refused .wrongCount
  else .refused .malformedEvent

end Sys2Proof.Machine
end

