-- ==== Sys2Proof/Machine/Classifier.lean ====
section
/-! DEFINITION. The meanings of SYMBOL and of the timing classifier's operations
(spec/40_classifier.md). Each drives its result and changes no register (R108). -/

namespace Sys2Proof.Machine

/-- SYMBOL (R70, R71): the two durations of a symbol word. -/
def execSymbol (w : SymW) (s : State) : Result :=
  .next (s.drive (.durations (dur0 w) (dur1 w)))

/-- IN_RANGE (R100). -/
def execInRange (measured nominal : Nat) (s : State) : Result :=
  .next (s.drive (.flag (inRange s.cfg measured nominal)))

/-- PAIR_MATCH, REFSEL 0b00 (R103). -/
def execPairMatchLead (w : SymW) (s : State) : Result :=
  .next (s.drive (.flag (pairMatch s.cfg w .lead)))

/-- PAIR_MATCH, REFSEL 0b01 (R103). -/
def execPairMatchZero (w : SymW) (s : State) : Result :=
  .next (s.drive (.flag (pairMatch s.cfg w .zero)))

/-- PAIR_MATCH, REFSEL 0b10 (R103). -/
def execPairMatchOne (w : SymW) (s : State) : Result :=
  .next (s.drive (.flag (pairMatch s.cfg w .one)))

/-- PAIR_MATCH, REFSEL 0b11 (R103). -/
def execPairMatchRep (w : SymW) (s : State) : Result :=
  .next (s.drive (.flag (pairMatch s.cfg w .rep)))

/-- CLASSIFY_BIT (R104). -/
def execClassifyBit (w : SymW) (s : State) : Result :=
  .next (s.drive (.bitClass (classifyBit s.cfg w)))

/-- CHECK_LEADING (R106). -/
def execCheckLeading (w : SymW) (s : State) : Result :=
  .next (s.drive (.flag (checkLeading s.cfg w)))

/-- CHECK_REPEAT (R107). -/
def execCheckRepeat (w : SymW) (s : State) : Result :=
  .next (s.drive (.flag (checkRepeat s.cfg w)))

end Sys2Proof.Machine
end

