-- ==== Sys2Proof/Machine/Control.lean ====
section
/-! DEFINITION. The meanings of the control FSM's steps, the front end's POST and RESET
(spec/43_receive_fsm.md, spec/70_reset_and_hazards.md). -/

namespace Sys2Proof.Machine

/-- ARM_OK (R191): STATE = ARM, the front end answers ok. -/
def execArmOk (s : State) : Result :=
  if s.fsm = .arm then .next s.armDone else .refused .notEnabled

/-- ARM_FAIL (R192): STATE = ARM, the front end answers fail. With retries left it tries again, with
none it enters FAULT (R233). -/
def execArmFail (s : State) : Result :=
  if s.fsm = .arm then
    if s.retryCnt < s.cfg.rearmRetries then .next s.retryArm else .next s.enterFault
  else .refused .notEnabled

/-- POST (R193, R194): in every STATE, when the front end may post and the event is well formed. -/
def execPost (e : Event) (s : State) : Result :=
  if postAllowed s then
    if eventOk s.cfg e then .next (s.posted e) else .refused .malformedEvent
  else .refused .notEnabled

/-- DEQUEUE (R195): STATE = WAIT and QUEUE not empty. -/
def execDequeue (s : State) : Result :=
  if s.fsm = .wait then
    match dequeue s.queue with
    | none => .refused .notEnabled
    | some (e, rest) =>
      if e.count = normalLen then .next (s.taken e rest).parserInit else .next (s.taken e rest)
  else .refused .notEnabled

/-- TIMEOUT (R196): STATE = WAIT, QUEUE empty and the timer expired, which the transaction says. No
state changes. -/
def execTimeout (s : State) : Result :=
  if timerRuns s then .next s else .refused .notEnabled

/-- DECODE (R197), in one atomic step (R140). -/
def execDecode (s : State) : Result := decodeStep s

/-- RESET (R260): in any state. -/
def execReset (s : State) : Result := .next s.resetRegs

end Sys2Proof.Machine
end

