-- ==== Sys2Proof/Machine/Dispatcher.lean ====
section
/-! DEFINITION. The meanings of the frame-type dispatcher's operations (spec/42_dispatcher.md): the
combinational ones, which drive their result, and the outcomes, each the DECODE step that emits it. -/

namespace Sys2Proof.Machine

/-- DISPATCH (R160) of an event with the last decoded pair of the state. -/
def execDispatch (e : Event) (s : State) : Result :=
  withEvent s e (fun _ => true) ((s.dispatchOf e).map .dispatched)

/-- REPEATP (R168), for an event of count 2. -/
def execRepeatp (e : Event) (s : State) : Result :=
  withEvent s e (· == repeatLen)
    ((repeatPath s.cfg e s.lastAddr s.lastCmd s.lastValid).map .dispatched)

/-- The UNKNOWN_FRAME path (R170), for an event of any other count. -/
def execUnknownFramePath (e : Event) (s : State) : Result :=
  withEvent s e (fun n => n != normalLen && n != repeatLen)
    (some (.dispatched (unknownPath e s.lastAddr s.lastCmd s.lastValid)))

/-- LOOKUP (R163). -/
def execLookup (key : BitVec 8) (s : State) : Result :=
  .next (s.drive (.entry (lookup s.cfg key).1 (lookup s.cfg key).2))

/-- OUT_KEY, CODE 0x1 (R164). -/
def execOutKey (f : OutFields) (s : State) : Result := emitStep (mkOutcome 0x1#4 f) s

/-- OUT_UNMAPPED_KEY, CODE 0x2 (R165). -/
def execOutUnmappedKey (f : OutFields) (s : State) : Result := emitStep (mkOutcome 0x2#4 f) s

/-- OUT_BAD_LEADING, CODE 0x3 (R166). -/
def execOutBadLeading (f : OutFields) (s : State) : Result := emitStep (mkOutcome 0x3#4 f) s

/-- OUT_BAD_BIT, CODE 0x4 (R167). -/
def execOutBadBit (f : OutFields) (s : State) : Result := emitStep (mkOutcome 0x4#4 f) s

/-- OUT_REPEAT, CODE 0x5 (R168). -/
def execOutRepeat (f : OutFields) (s : State) : Result := emitStep (mkOutcome 0x5#4 f) s

/-- OUT_NOT_REPEAT, CODE 0x6 (R169). -/
def execOutNotRepeat (f : OutFields) (s : State) : Result := emitStep (mkOutcome 0x6#4 f) s

/-- OUT_UNKNOWN_FRAME, CODE 0x7 (R170). -/
def execOutUnknownFrame (f : OutFields) (s : State) : Result := emitStep (mkOutcome 0x7#4 f) s

end Sys2Proof.Machine
end

