-- ==== Sys2Proof/Machine/Parser.lean ====
section
/-! DEFINITION. The meanings of the frame parser's two forms (spec/41_parser.md): PARSE, functional,
and PSTEP, one micro-step of the shift register and bit counter. -/

namespace Sys2Proof.Machine

/-- PARSE (R130), for an event of count 34. -/
def execParse (e : Event) (s : State) : Result :=
  withEvent s e (· == normalLen) ((parse s.cfg e).map .parsed)

/-- The new SR: the bit enters at bit 31 while the register shifts right by one (R139). -/
def shiftIn (b : Bool) (sr : BitVec 32) : BitVec 32 :=
  BitVec.ofBool b ++ sr.extractLsb' 1 31

/-- PSTEP on a data symbol (R139). -/
def pstepData (s : State) (w : SymW) : Result :=
  match classifyBit s.cfg w with
  | .invalid => finishParse s .badBit
  | c =>
    let sr' := shiftIn (c == .one) s.sr
    let s' := s.shifted sr' (s.bitCnt + 1#6) (s.idx + 1#16)
    if s.bitCnt.toNat + 1 = dataBits then
      finishParse s' (.ok (sr'.extractLsb' 0 16) (sr'.extractLsb' 16 16))
    else .next s'

/-- PSTEP on the symbol IDX names (R139). -/
def pstepSymbol (s : State) (w : SymW) : Result :=
  if s.idx = 0#16 then
    if checkLeading s.cfg w then .next (s.shifted s.sr s.bitCnt 1#16)
    else finishParse s .badLeading
  else pstepData s w

/-- PSTEP (R139): enabled while STATE = DECODE with an event of count 34 whose parse is not
finished. -/
def execPstep (s : State) : Result :=
  if s.fsm = .decode then
    match s.curEvt with
    | none => .fault .curEvtNotHeld
    | some e =>
      if e.count = normalLen ∧ parseRunning s then
        match symRead e s.idx.toNat with
        | none => .fault .symReadOutOfRange
        | some w => pstepSymbol s w
      else .refused .notEnabled
  else .refused .notEnabled

end Sys2Proof.Machine
end

