-- ==== Sys2Proof/Machine/Dispatch.lean ====
section
/-! DEFINITION. One arm per row of spec/opcode_table.json. -/

namespace Sys2Proof.Machine

def exec (i : Instr) (s : State) : Host.Outcome State Fault Refusal :=
  match i with
  | .symbol w => Sys2Proof.Machine.execSymbol w s
  | .post e => Sys2Proof.Machine.execPost e s
  | .inRange measured nominal => Sys2Proof.Machine.execInRange measured nominal s
  | .pairMatchLead w => Sys2Proof.Machine.execPairMatchLead w s
  | .pairMatchZero w => Sys2Proof.Machine.execPairMatchZero w s
  | .pairMatchOne w => Sys2Proof.Machine.execPairMatchOne w s
  | .pairMatchRep w => Sys2Proof.Machine.execPairMatchRep w s
  | .classifyBit w => Sys2Proof.Machine.execClassifyBit w s
  | .checkLeading w => Sys2Proof.Machine.execCheckLeading w s
  | .checkRepeat w => Sys2Proof.Machine.execCheckRepeat w s
  | .dispatch e => Sys2Proof.Machine.execDispatch e s
  | .parse e => Sys2Proof.Machine.execParse e s
  | .repeatp e => Sys2Proof.Machine.execRepeatp e s
  | .unknownFramePath e => Sys2Proof.Machine.execUnknownFramePath e s
  | .lookup key => Sys2Proof.Machine.execLookup key s
  | .armOk => Sys2Proof.Machine.execArmOk s
  | .armFail => Sys2Proof.Machine.execArmFail s
  | .dequeue => Sys2Proof.Machine.execDequeue s
  | .timeout => Sys2Proof.Machine.execTimeout s
  | .decode => Sys2Proof.Machine.execDecode s
  | .pstep => Sys2Proof.Machine.execPstep s
  | .reset => Sys2Proof.Machine.execReset s
  | .outKey f => Sys2Proof.Machine.execOutKey f s
  | .outUnmappedKey f => Sys2Proof.Machine.execOutUnmappedKey f s
  | .outBadLeading f => Sys2Proof.Machine.execOutBadLeading f s
  | .outBadBit f => Sys2Proof.Machine.execOutBadBit f s
  | .outRepeat f => Sys2Proof.Machine.execOutRepeat f s
  | .outNotRepeat f => Sys2Proof.Machine.execOutNotRepeat f s
  | .outUnknownFrame f => Sys2Proof.Machine.execOutUnknownFrame f s

end Sys2Proof.Machine
end

