-- ==== Sys2Proof/Machine/Script.lean ====
section
/-! DEFINITION. The stimulus script syntax (R83), its pseudo-operations (R84) and the nominal symbol
words they are built from (spec/30_encoding.md, section 1). -/

namespace Sys2Proof.Machine

/-- A symbol word of two durations with L0 = 1 and L1 = 0, the levels of the nominal words. -/
def nominalWord (high low : Nat) : SymW :=
  mkSymbol false (BitVec.ofNat 15 low) true (BitVec.ofNat 15 high)

def wLead : SymW := nominalWord 9000 4500

def wZero : SymW := nominalWord 560 560

def wOne : SymW := nominalWord 560 1690

def wRep : SymW := nominalWord 9000 2250

def wEnd : SymW := nominalWord 560 0

/-- b(v, i) of R84: the nominal word of bit i. -/
def bitWord (one zero : SymW) (v : BitVec 16) (i : Nat) : SymW :=
  if v.getLsbD i then one else zero

/-- The 34 symbols of a frame, from a leading word, the two bit words and a last word (R84). -/
def frameSyms (lead one zero last : SymW) (a c : BitVec 16) : List SymW :=
  lead :: ((List.range 16).map (bitWord one zero a) ++ ((List.range 16).map (bitWord one zero c)
    ++ [last]))

/-- The event `FRAME a, c` posts (R84). -/
def frameEvent (a c : BitVec 16) : Event := ⟨normalLen, frameSyms wLead wOne wZero wEnd a c⟩

/-- The event `REPEATF` posts (R84). -/
def repeatEvent : Event := ⟨repeatLen, [wRep, wEnd]⟩

/-- The event `JUNK n` posts (R84). -/
def junkEvent (n : Nat) : Event := ⟨n, List.replicate n wZero⟩

/-- A line of a script (R83) or a pseudo-operation (R84). -/
inductive Line where
  | reset
  | arm (ok : Bool)
  | post (e : Event)
  | dequeue
  | timeout
  | decode
  | frame (a c : BitVec 16)
  | repeatf
  | junk (n : Nat)
  | step
deriving DecidableEq, Repr

/-- The steps of a line (R83), a pseudo-operation expanded (R84). -/
def Line.steps : Line → List Instr
  | .reset => [.reset]
  | .arm true => [.armOk]
  | .arm false => [.armFail]
  | .post e => [.post e]
  | .dequeue => [.dequeue]
  | .timeout => [.timeout]
  | .decode => [.decode]
  | .frame a c => [.post (frameEvent a c)]
  | .repeatf => [.post repeatEvent]
  | .junk n => [.post (junkEvent n)]
  | .step => [.dequeue, .decode]

/-- A script as the transactions the agents make. -/
def scriptXacts (ls : List Line) : List Xact := (ls.flatMap Line.steps).map encode

end Sys2Proof.Machine
end

