-- ==== Sys2Proof/Machine/Fetch.lean ====
section
/-! DEFINITION. Where the next transaction comes from (log 1, log 2), and the selection an operation
needs before it can be the next step (log 19). -/

namespace Sys2Proof.Machine

/-- The next transaction and the state without it: the head of `stim`, or a free one. -/
def nextXact (s : State) : Xact × State :=
  match s.stim with
  | x :: rest => (x, { s with stim := rest })
  | [] => (Config.freeXact s.draws, { s with draws := s.draws + 1 })

/-- An event whose DISPATCH emits the outcome word of these fields, where one exists. -/
def eventOfOutcome (cfg : Config) (code : Nat) (f : OutFields) : Event :=
  let zeros (n : Nat) : Event := ⟨n, List.replicate n 0#32⟩
  let lead := nominalWord cfg.tLeadH cfg.tLeadL
  match code with
  | 1 | 2 =>
    ⟨normalLen, frameSyms lead (nominalWord cfg.tOneH cfg.tOneL)
      (nominalWord cfg.tZeroH cfg.tZeroL) 0#32 f.addr f.cmd⟩
  | 3 => zeros normalLen
  | 4 => ⟨normalLen, lead :: List.replicate 33 0#32⟩
  | 5 => ⟨repeatLen, [nominalWord cfg.tRepH cfg.tRepL, 0#32]⟩
  | 6 => zeros repeatLen
  | _ => zeros f.count.toNat

/-- STATE = DECODE with an event held, the parser at its start (R195, R141). -/
def State.holding (s : State) (e : Event) : State :=
  { s with fsm := .decode, curEvt := some e, sr := 0x0000_0000#32, bitCnt := 0#6, idx := 0#16 }

/-- STATE = DECODE with an event that emits the word, and the last pair a repeat reports. -/
def State.holdingFor (s : State) (code : Nat) (f : OutFields) : State :=
  let t := s.holding (eventOfOutcome s.cfg code f)
  if code = 5 then { t with lastAddr := f.addr, lastCmd := f.cmd, lastValid := f.lv } else t

/-- The state in which the operation is the one selected (R81): STATE, and what QUEUE, CUR_EVT and
ARMED must hold for it. Operations that are always available change nothing. Log 19. -/
def State.select (s : State) : Instr → State
  | .post _ => { s with armed := true }
  | .armOk => { s with fsm := .arm }
  | .armFail => { s with fsm := .arm }
  | .dequeue => { s with fsm := .wait, queue := if s.queue.isEmpty then [⟨0, []⟩] else s.queue }
  | .timeout => { s with fsm := .wait, queue := [] }
  | .decode => s.holding ((s.curEvt).getD ⟨0, []⟩)
  | .pstep => s.holding ⟨normalLen, List.replicate normalLen 0#32⟩
  | .outKey f => s.holdingFor 1 f
  | .outUnmappedKey f => s.holdingFor 2 f
  | .outBadLeading f => s.holdingFor 3 f
  | .outBadBit f => s.holdingFor 4 f
  | .outRepeat f => s.holdingFor 5 f
  | .outNotRepeat f => s.holdingFor 6 f
  | .outUnknownFrame f => s.holdingFor 7 f
  | .symbol _ | .inRange _ _ | .pairMatchLead _ | .pairMatchZero _ | .pairMatchOne _
  | .pairMatchRep _ | .classifyBit _ | .checkLeading _ | .checkRepeat _ | .dispatch _ | .parse _
  | .repeatp _ | .unknownFramePath _ | .lookup _ | .reset => s

/-- The transaction put first, with the selection its operation needs. -/
def State.withXact (s : State) (x : Xact) : State :=
  match decodeXact x with
  | .ok i => { s.select i with stim := x :: s.stim }
  | .error _ => { s with stim := x :: s.stim }

end Sys2Proof.Machine
end

