-- ==== Sys2Proof/Machine/Step.lean ====
section
/-! DEFINITION. One step of the machine: the next transaction, decoded and run. -/

namespace Sys2Proof.Machine

/-- One step. No step is taken from a configuration that is not well formed (R6, R262); otherwise the
next agent's transaction is taken (R201), decoded and run, in one atomic step (R10). -/
def step (s : State) : Host.Outcome State Fault Refusal :=
  if configOk s.cfg then
    match decodeXact (nextXact s).1 with
    | .ok i => exec i (nextXact s).2
    | .error e => .refused (.undecodable e)
  else .refused .illFormedConfig

/-- The state whose next step runs the operation of a table word (log 18, log 19). -/
def State.withFetchWord (s : State) (nbits w : Nat) : State :=
  s.withXact (tableXact nbits w)

end Sys2Proof.Machine
end

