-- ==== Sys2Proof/Safety.lean ====
section
/-! DEFINITION. The terms claims about the block are stated in: runs, the invariants of a state a run
reaches, what a decoding step leaves, and when a run counts as safe. -/

namespace Sys2Proof.Machine

/-! ## Runs -/

/-- Run a list of operations, one step each, until the first that does not answer a next state. -/
def execAll : List Instr → State → Result
  | [], s => .next s
  | i :: is, s =>
    match exec i s with
    | .next t => execAll is t
    | .fault r => .fault r
    | .refused r => .refused r

/-- `n` steps of the machine. -/
def steps : Nat → State → Result
  | 0, s => .next s
  | n + 1, s =>
    match step s with
    | .next t => steps n t
    | .fault r => .fault r
    | .refused r => .refused r

/-- R233: "A model treats a run that reaches FAULT as faulted, never as final." -/
def SafeRun (n : Nat) (s : State) : Prop :=
  ∀ k, k ≤ n → (∀ t, steps k s = .next t → t.fsm ≠ .fault) ∧ ∀ r, steps k s ≠ .fault r

/-! ## Infinite runs and the scheduler's fairness (R201) -/

/-- A step of the operation can be taken. -/
def Enabled (i : Instr) (s : State) : Prop := ∃ t, exec i s = .next t

/-- The CTL steps other than TIMEOUT (R190), with the micro-step and the outcomes of DECODE. DEDUCED,
log 27. -/
def controllerStep : Instr → Bool
  | .armOk | .armFail | .dequeue | .decode | .pstep | .outKey _ | .outUnmappedKey _
  | .outBadLeading _ | .outBadBit _ | .outRepeat _ | .outNotRepeat _ | .outUnknownFrame _ => true
  | .symbol _ | .post _ | .inRange _ _ | .pairMatchLead _ | .pairMatchZero _ | .pairMatchOne _
  | .pairMatchRep _ | .classifyBit _ | .checkLeading _ | .checkRepeat _ | .dispatch _ | .parse _
  | .repeatp _ | .unknownFramePath _ | .lookup _ | .timeout | .reset => false

/-- An infinite run: at each point some enabled operation of some agent is taken (R201). -/
structure Run where
  state : Nat → State
  op    : Nat → Instr
  next  : ∀ n, exec (op n) (state n) = .next (state (n + 1))

/-- R201: "if a CTL step other than TIMEOUT stays enabled, some CTL step other than TIMEOUT is
eventually taken." -/
def Run.Fair (r : Run) : Prop :=
  ∀ (n : Nat) (i : Instr), controllerStep i = true → (∀ k, n ≤ k → Enabled i (r.state k)) →
    ∃ k, n ≤ k ∧ controllerStep (r.op k) = true

/-! ## Events dispatched one after the other -/

/-- The words DISPATCH gives a list of events in turn, each with the last pair the ones before it
left, and the last pair at the end (R60, R268). None: a read out of range. -/
def dispatchAll (cfg : Config) :
    List Event → BitVec 16 → BitVec 16 → Bool → Option (List OutW × BitVec 16 × BitVec 16 × Bool)
  | [], la, lc, lv => some ([], la, lc, lv)
  | e :: es, la, lc, lv =>
    match dispatch cfg e la lc lv with
    | none => none
    | some d =>
      (dispatchAll cfg es d.lastAddr d.lastCmd d.lastValid).map fun r => (d.word :: r.1, r.2)

/-! ## Outcome words by arithmetic -/

/-- The outcome word of R73 as a sum over the bit positions of its fields. -/
def outcomeNat (code lv mapped label addr cmd count : Nat) : Nat :=
  code + lv * 2 ^ 4 + mapped * 2 ^ 5 + label * 2 ^ 8 + addr * 2 ^ 16 + cmd * 2 ^ 32 + count * 2 ^ 48

/-- COUNT, bits 63:48 of an outcome word (R73). -/
def wordCount (w : OutW) : Nat := w.toNat / 2 ^ 48

/-! ## Invariants -/

/-- At most QDEPTH events are queued, each well formed (R24, R51). -/
def State.storageWf (s : State) : Prop :=
  s.queue.length ≤ s.cfg.qdepth ∧ ∀ e, e ∈ s.queue → eventOk s.cfg e = true

/-- What holds in every state a run reaches: a well-formed configuration (R262), RETRY_CNT within
REARM_RETRIES (R23), well-formed storage (R24, R51), CUR_EVT held exactly in DECODE (R25) and well
formed, a clear last pair while LAST_VALID = 0 (R29), BITCNT and IDX within their ranges (R31, R32),
and no reserved outcome word ever emitted (R75). -/
structure State.Inv (s : State) : Prop where
  config    : configOk s.cfg = true
  retry     : s.retryCnt ≤ s.cfg.rearmRetries
  storage   : s.storageWf
  curHeld   : s.curEvt.isSome = true ↔ s.fsm = .decode
  curOk     : ∀ e, s.curEvt = some e → eventOk s.cfg e = true
  lastClear : s.lastValid = false → s.lastAddr = 0#16 ∧ s.lastCmd = 0#16
  bitRange  : s.bitCnt.toNat ≤ 32
  idxRange  : s.idx.toNat ≤ 33
  outLegal  : ∀ w, w ∈ s.out → ∃ i, decodeOutcome w = .ok i

/-- How many receptions are under way: armed for, queued, or being decoded. -/
def State.outstanding (s : State) : Nat :=
  s.armed.toNat + s.queue.length + s.curEvt.isSome.toNat

/-- Where POST_WHEN_DISARMED is false, one reception is under way in WAIT and DECODE and none in ARM
and FAULT (R191, R194: "at most one event is ever queued"). -/
def State.OneReception (s : State) : Prop :=
  s.cfg.postWhenDisarmed = false →
    (s.fsm = .wait ∨ s.fsm = .decode → s.outstanding = 1) ∧
      (s.fsm = .arm ∨ s.fsm = .fault → s.outstanding = 0)

/-- The sequential parser is `k` accepted bits into the event (R139): the leading code has passed,
the first `k` data symbols are no Invalid, and they stand in the top `k` bits of SR, the first one
lowest. -/
def State.ParsedBits (s : State) (e : Event) (k : Nat) : Prop :=
  k < dataBits ∧ s.idx.toNat = k + 1 ∧ s.bitCnt.toNat = k ∧
    (∃ w, symRead e 0 = some w ∧ checkLeading s.cfg w = true) ∧
    ∃ cs, classifyFrom s.cfg e 1 k = some cs ∧ BitClass.invalid ∉ cs ∧
      s.sr.toNat = assemble cs * 2 ^ (32 - k)

/-- The sequential parser is somewhere in its run over the event being decoded, at its start (R141)
or some bits in (R139). -/
def State.ParserProgress (s : State) : Prop :=
  ∀ e, s.fsm = .decode → s.curEvt = some e → e.count = normalLen →
    (s.idx = 0#16 ∧ s.bitCnt = 0#6 ∧ s.sr = 0#32) ∨ ∃ k, s.ParsedBits e k

/-! ## What steps leave -/

/-- `t` is `s` after a step that decoded an event: word `w` emitted last, the last pair `(a, c, v)`,
CUR_EVT given up, the controller in ARM (R197, R198), and all that R197 does not write as before. -/
structure State.Decoded (s t : State) (w : OutW) (a c : BitVec 16) (v : Bool) : Prop where
  out       : t.out = s.out ++ [w]
  lastAddr  : t.lastAddr = a
  lastCmd   : t.lastCmd = c
  lastValid : t.lastValid = v
  curEvt    : t.curEvt = none
  fsm       : t.fsm = .arm
  armed     : t.armed = s.armed
  retryCnt  : t.retryCnt = s.retryCnt
  queue     : t.queue = s.queue
  cfg       : t.cfg = s.cfg
  comb      : t.comb = s.comb
  stim      : t.stim = s.stim

/-- The parser's registers are those of before. -/
structure State.SameParser (s t : State) : Prop where
  sr     : t.sr = s.sr
  bitCnt : t.bitCnt = s.bitCnt
  idx    : t.idx = s.idx

/-- Equal but for SR, BITCNT and IDX, which no output reads (R33), and the count of free values
used. -/
def State.agree (s t : State) : Prop :=
  t = { s with sr := t.sr, bitCnt := t.bitCnt, idx := t.idx, draws := t.draws }

/-- CUR_EVT is a well-formed event and the controller is decoding it (R25, R197). -/
def State.Decoding (s : State) (e : Event) : Prop :=
  s.fsm = .decode ∧ s.curEvt = some e ∧ eventOk s.cfg e = true

/-- Data bit `k` of an event (R132): CLASSIFY_BIT of symbol `1 + k`. -/
def dataBit (cfg : Config) (e : Event) (k : Nat) : Option BitClass :=
  (symRead e (1 + k)).map (classifyBit cfg)

/-- The operations that drive a result and write no register (R108, R130, R160, R163). -/
def combinational : Instr → Bool
  | .symbol _ | .inRange _ _ | .pairMatchLead _ | .pairMatchZero _ | .pairMatchOne _
  | .pairMatchRep _ | .classifyBit _ | .checkLeading _ | .checkRepeat _ | .dispatch _ | .parse _
  | .repeatp _ | .unknownFramePath _ | .lookup _ => true
  | .post _ | .armOk | .armFail | .dequeue | .timeout | .decode | .pstep | .reset | .outKey _
  | .outUnmappedKey _ | .outBadLeading _ | .outBadBit _ | .outRepeat _ | .outNotRepeat _
  | .outUnknownFrame _ => false

end Sys2Proof.Machine
end

