-- ==== Sys2Proof/Certificates/Slice0/Obligations.lean ====
section
/-! DEFINITION. The statements for the provers. Each docstring names the rules of spec/ it formalises.
An equation `exec i s = .next { s with … }` states the frame of the operation with its result: every
field not listed is as before. -/

open Sys2Proof Sys2Proof.Machine

/-! ## Encodings (spec/30_encoding.md) -/

/-- Decoding the transaction of a well-formed operation gives it back, with every operand
(R70, R73, R76, R80, R81). -/
def Obligations.DecodeOfEncodeIsIdentity : Prop :=
  ∀ i : Instr, i.wf = true → decodeXact (encode i) = .ok i

/-- Words written out from the formats of R70, R73, R76, R80 and R81, for eight of the units. The word
after a selector (log 3) and the bare key of LOOKUP, whose table row has the entry's bits (log 8), are
the model's own choices. -/
def Obligations.WrittenWordsDecode : Prop :=
  decodeXact ⟨.symbolIn, [0x1194A328]⟩ = .ok (.symbol 0x1194A328#32) ∧
  decodeXact ⟨.fePost, [0x00000002, 0x08CAA328, 0x00008230]⟩
    = .ok (.post ⟨2, [0x08CAA328#32, 0x00008230#32]⟩) ∧
  decodeXact ⟨.fePost, [0x00010000]⟩ = .error .reservedHeaderBits ∧
  decodeXact ⟨.comparator, [0b10, 0x069A8230]⟩ = .ok (.pairMatchOne 0x069A8230#32) ∧
  decodeXact ⟨.framePath, [0x00000002, 0, 0]⟩ = .ok (.repeatp ⟨2, [0#32, 0#32]⟩) ∧
  decodeXact ⟨.cmdTable, [0xBA]⟩ = .ok (.lookup 0xBA#8) ∧
  decodeXact ⟨.controller, [0b001000]⟩ = .ok .armOk ∧
  decodeXact ⟨.controller, [0b110000]⟩ = .ok .armFail ∧
  decodeXact ⟨.controller, [0b011001]⟩ = .ok .dequeue ∧
  decodeXact ⟨.controller, [0b100001]⟩ = .ok .timeout ∧
  decodeXact ⟨.controller, [0b000010]⟩ = .ok .decode ∧
  decodeXact ⟨.controller, [0b000111]⟩ = .error (.noSuchSelector .controller) ∧
  decodeXact ⟨.rst, [1]⟩ = .ok .reset ∧
  decodeXact ⟨.out, [0x0022BA45FF000131]⟩
    = .ok (.outKey ⟨true, true, 0x01#8, 0xFF00#16, 0xBA45#16, 34#16⟩)

/-- R75: exactly the reserved outcome words are refused, read off the bits of the word. -/
def Obligations.ReservedOutcomeWordsRefused : Prop :=
  ∀ w : Nat, w < 2 ^ 64 →
    ((∃ r, decodeXact ⟨.out, [w]⟩ = .error r) ↔
      w % 16 = 0 ∨ 8 ≤ w % 16 ∨ w / 2 ^ 6 % 4 ≠ 0 ∨
        (w / 2 ^ 5 % 2 = 0 ∧ w / 2 ^ 8 % 256 ≠ 0) ∨
        (w / 2 ^ 4 % 2 = 0 ∧ (w / 2 ^ 16 % 65536 ≠ 0 ∨ w / 2 ^ 32 % 65536 ≠ 0)))

/-- R51, R76, R82: the words of an event are a header whose upper half is zero and as many 32-bit
symbol words as the header says, and nothing else decodes. -/
def Obligations.EventWordsDecodeByHeader : Prop :=
  ∀ (h : Nat) (ws : List Nat) (e : Event),
    decodeXact ⟨.fePost, h :: ws⟩ = .ok (.post e) ↔
      h < 65536 ∧ (∀ w, w ∈ ws → w < 2 ^ 32) ∧ ws.length = h ∧
        e = ⟨h, ws.map (BitVec.ofNat 32)⟩

/-- R81: CTLSEL, the view of STATE, QUEUE and the inputs, selects exactly the controller step that is
enabled, and none in FAULT. -/
def Obligations.CtlselSelectsTheEnabledStep : Prop :=
  ∀ (s : State) (armResp tmo : Bool) (i : Instr),
    decodeXact ⟨.controller, [(ctlsel s armResp tmo).toNat]⟩ = .ok i ↔
      (s.fsm = .arm ∧ armResp = true ∧ i = .armOk) ∨
      (s.fsm = .arm ∧ armResp = false ∧ i = .armFail) ∨
      (s.fsm = .wait ∧ s.queue ≠ [] ∧ i = .dequeue) ∨
      (s.fsm = .wait ∧ s.queue = [] ∧ tmo = true ∧ i = .timeout) ∨
      (s.fsm = .decode ∧ i = .decode)

/-- R77: the encoding of STATE, and the reserved values refused. -/
def Obligations.StateCodesAsListedAndReservedRefused : Prop :=
  fsmCode .arm = 0b000#3 ∧ fsmCode .wait = 0b001#3 ∧ fsmCode .decode = 0b010#3 ∧
  fsmCode .fault = 0b111#3 ∧
  (∀ (c : BitVec 3) (f : Fsm), fsmOfCode c = .ok f ↔ fsmCode f = c) ∧
  ∀ c : BitVec 3, (c = 0b011#3 ∨ c = 0b100#3 ∨ c = 0b101#3 ∨ c = 0b110#3) →
    fsmOfCode c = .error .reservedState

/-! ## Configuration (spec/00_scope.md) -/

/-- R6: for MARGIN >= 1 the check of the model is the non-overlap of the windows. -/
def Obligations.WindowCheckIsNonOverlap : Prop :=
  ∀ cfg : Config, 1 ≤ cfg.margin →
    (windowsDisjoint cfg = true ↔
      ¬ ∃ h l : Nat,
        (inRange cfg h cfg.tZeroH = true ∧ inRange cfg l cfg.tZeroL = true) ∧
          (inRange cfg h cfg.tOneH = true ∧ inRange cfg l cfg.tOneL = true))

/-- R6, R262: no step from a configuration whose windows overlap or whose MARGIN is 0. -/
def Obligations.IllFormedConfigurationTakesNoStep : Prop :=
  ∀ s : State,
    (s.cfg.margin = 0 ∨
      ∃ h l : Nat,
        (inRange s.cfg h s.cfg.tZeroH = true ∧ inRange s.cfg l s.cfg.tZeroL = true) ∧
          (inRange s.cfg h s.cfg.tOneH = true ∧ inRange s.cfg l s.cfg.tOneL = true)) →
    step s = .refused .illFormedConfig

/-- R262: no step changes the configuration, the command table included. -/
def Obligations.ConfigurationNeverChanges : Prop :=
  ∀ s t : State, step s = .next t → t.cfg = s.cfg

/-! ## Timing classifier (spec/40_classifier.md) -/

/-- R71: SYMBOL gives the two 15-bit durations of the word and changes nothing else. -/
def Obligations.SymbolGivesItsDurations : Prop :=
  ∀ (w : SymW) (s : State),
    exec (.symbol w) s =
      .next { s with comb := .durations (w.toNat % 2 ^ 15) (w.toNat / 2 ^ 16 % 2 ^ 15) }

/-- R71: no operation on a symbol word reads its level bits. -/
def Obligations.LevelBitsChangeNoResult : Prop :=
  ∀ (w m : SymW) (s : State), m &&& 0x7FFF7FFF#32 = 0#32 →
    exec (.symbol (w ^^^ m)) s = exec (.symbol w) s ∧
    exec (.pairMatchLead (w ^^^ m)) s = exec (.pairMatchLead w) s ∧
    exec (.pairMatchZero (w ^^^ m)) s = exec (.pairMatchZero w) s ∧
    exec (.pairMatchOne (w ^^^ m)) s = exec (.pairMatchOne w) s ∧
    exec (.pairMatchRep (w ^^^ m)) s = exec (.pairMatchRep w) s ∧
    exec (.classifyBit (w ^^^ m)) s = exec (.classifyBit w) s ∧
    exec (.checkLeading (w ^^^ m)) s = exec (.checkLeading w) s ∧
    exec (.checkRepeat (w ^^^ m)) s = exec (.checkRepeat w) s

/-- R100: IN_RANGE is the open window around the nominal, exact on naturals. -/
def Obligations.InRangeIsTheOpenWindow : Prop :=
  ∀ (measured nominal : Nat) (s : State),
    exec (.inRange measured nominal) s =
      .next { s with
        comb := .flag (decide ((nominal : Int) - s.cfg.margin < measured ∧
          (measured : Int) < nominal + s.cfg.margin)) }

/-- R101: the corners of the window, and how many naturals it holds. -/
def Obligations.WindowCorners : Prop :=
  ∀ (cfg : Config) (n : Nat), 1 ≤ cfg.margin →
    inRange cfg n n = true ∧
    inRange cfg (n + cfg.margin) n = false ∧
    (cfg.margin ≤ n → inRange cfg (n - cfg.margin) n = false) ∧
    inRange cfg (n + cfg.margin - 1) n = true ∧
    (cfg.margin - 1 ≤ n → inRange cfg (n + 1 - cfg.margin) n = true) ∧
    (n < cfg.margin → ∀ m, inRange cfg m n = decide (m < n + cfg.margin)) ∧
    (cfg.margin - 1 ≤ n →
      ((List.range (n + cfg.margin)).filter fun m => inRange cfg m n).length = 2 * cfg.margin - 1)

/-- R103, R106, R107: PAIR_MATCH by its four selectors, both halves in range of the pair REFSEL names;
CHECK_LEADING and CHECK_REPEAT are PAIR_MATCH with REFSEL 0b00 and 0b11. -/
def Obligations.PairMatchNeedsBothHalves : Prop :=
  ∀ (w : SymW) (s : State),
    exec (.pairMatchLead w) s =
      .next { s with
        comb := .flag (inRange s.cfg (dur0 w) s.cfg.tLeadH && inRange s.cfg (dur1 w) s.cfg.tLeadL) } ∧
    exec (.pairMatchZero w) s =
      .next { s with
        comb := .flag (inRange s.cfg (dur0 w) s.cfg.tZeroH && inRange s.cfg (dur1 w) s.cfg.tZeroL) } ∧
    exec (.pairMatchOne w) s =
      .next { s with
        comb := .flag (inRange s.cfg (dur0 w) s.cfg.tOneH && inRange s.cfg (dur1 w) s.cfg.tOneL) } ∧
    exec (.pairMatchRep w) s =
      .next { s with
        comb := .flag (inRange s.cfg (dur0 w) s.cfg.tRepH && inRange s.cfg (dur1 w) s.cfg.tRepL) } ∧
    exec (.checkLeading w) s =
      .next { s with
        comb := .flag (inRange s.cfg (dur0 w) s.cfg.tLeadH && inRange s.cfg (dur1 w) s.cfg.tLeadL) } ∧
    exec (.checkRepeat w) s =
      .next { s with
        comb := .flag (inRange s.cfg (dur0 w) s.cfg.tRepH && inRange s.cfg (dur1 w) s.cfg.tRepL) }

/-- R104: CLASSIFY_BIT answers One, Zero or Invalid, One tested first, and changes nothing else. -/
def Obligations.ClassifyBitAnswersOneZeroOrInvalid : Prop :=
  ∀ (w : SymW) (s : State),
    exec (.classifyBit w) s =
      .next { s with
        comb := .bitClass (if inRange s.cfg (dur0 w) s.cfg.tOneH && inRange s.cfg (dur1 w) s.cfg.tOneL then .one
          else if inRange s.cfg (dur0 w) s.cfg.tZeroH && inRange s.cfg (dur1 w) s.cfg.tZeroL then .zero
          else .invalid) }

/-- R105: in a well-formed configuration the order of the two tests cannot be seen, and a word
exactly at the nominal durations of a bit is classified as that bit. -/
def Obligations.BitWindowsNeverConflict : Prop :=
  ∀ (cfg : Config) (w : SymW), configOk cfg = true →
    ¬ (pairMatch cfg w .one = true ∧ pairMatch cfg w .zero = true) ∧
    (dur0 w = cfg.tZeroH → dur1 w = cfg.tZeroL → classifyBit cfg w = .zero) ∧
    (dur0 w = cfg.tOneH → dur1 w = cfg.tOneL → classifyBit cfg w = .one)

/-- R108: whatever a combinational operation answers, no register, no queue, no outcome and no
transaction is touched. -/
def Obligations.CombinationalOperationsWriteNoRegister : Prop :=
  ∀ (i : Instr) (s t : State), combinational i = true → exec i s = .next t →
    t = { s with comb := t.comb }

/-! ## Frame parser (spec/41_parser.md) -/

/-- R134, R135: on a frame whose leading code passes and whose 32 data symbols are all valid, PARSE
assembles address and command least significant bit first. -/
def Obligations.ParseAssemblesLeastSignificantBitFirst : Prop :=
  ∀ (e : Event) (s : State), eventOk s.cfg e = true → e.count = 34 →
    (∃ w, symRead e 0 = some w ∧ checkLeading s.cfg w = true) →
    (∀ k, k < 32 → dataBit s.cfg e k ≠ some .invalid) →
    ∃ a c : BitVec 16,
      exec (.parse e) s = .next { s with comb := .parsed (.ok a c) } ∧
      (∀ i, i < 16 → a.getLsbD i = decide (dataBit s.cfg e i = some .one)) ∧
      ∀ i, i < 16 → c.getLsbD i = decide (dataBit s.cfg e (16 + i) = some .one)

/-- R131: a failed leading check gives BadLeading whatever the other symbols hold. -/
def Obligations.FailedLeadingCodeDecidesParse : Prop :=
  ∀ (e : Event) (w : SymW) (s : State), eventOk s.cfg e = true → e.count = 34 →
    symRead e 0 = some w → checkLeading s.cfg w = false →
    exec (.parse e) s = .next { s with comb := .parsed .badLeading }

/-- R133: any Invalid among the 32 data symbols gives BadBit, and nothing of the bits. -/
def Obligations.AnyInvalidBitRejectsTheFrame : Prop :=
  ∀ (e : Event) (w : SymW) (k : Nat) (s : State), eventOk s.cfg e = true → e.count = 34 →
    symRead e 0 = some w → checkLeading s.cfg w = true →
    k < 32 → dataBit s.cfg e k = some .invalid →
    exec (.parse e) s = .next { s with comb := .parsed .badBit }

/-- R137, R168, R109: the last symbol of a normal frame and of a repeat frame cannot change what is
dispatched. -/
def Obligations.ClosingSymbolIsNeverRead : Prop :=
  ∀ (e e' : Event) (s : State), eventOk s.cfg e = true → eventOk s.cfg e' = true →
    e.count = e'.count →
    ((e.count = 34 ∧ ∀ i, i < 33 → symRead e i = symRead e' i) ∨
      (e.count = 2 ∧ symRead e 0 = symRead e' 0)) →
    exec (.dispatch e) s = exec (.dispatch e') s

/-- R139: PSTEP is taken only in DECODE, for count 34, with the parse not finished (how that is read off
IDX and BITCNT is log 10). A micro-step on the leading code, and on a data symbol that is not the last,
goes on; the new bit enters SR at bit 31 while it shifts right by one. -/
def Obligations.PstepShiftsOneBitIn : Prop :=
  (∀ s : State, Enabled .pstep s →
    s.fsm = .decode ∧ (∃ e, s.curEvt = some e ∧ e.count = 34) ∧ s.idx.toNat ≤ 32 ∧
      s.bitCnt.toNat < 32) ∧
  ∀ (s : State) (e : Event) (w : SymW), s.Decoding e → e.count = 34 →
    symRead e s.idx.toNat = some w →
    (s.idx = 0#16 → s.bitCnt = 0#6 → checkLeading s.cfg w = true →
      exec .pstep s = .next { s with idx := 1#16 }) ∧
    (1 ≤ s.idx.toNat → s.idx.toNat ≤ 32 → s.bitCnt.toNat < 31 →
      classifyBit s.cfg w ≠ .invalid →
      ∃ sr' : BitVec 32,
        exec .pstep s =
          .next { s with sr := sr', bitCnt := s.bitCnt + 1#6, idx := s.idx + 1#16 } ∧
        sr'.toNat = s.sr.toNat / 2 + (if classifyBit s.cfg w = .one then 2 ^ 31 else 0))

/-- R139, R197: a micro-step that ends the parse hands its result to the normal-frame path and
completes the DECODE step in the same micro-step; no micro-step is taken outside DECODE or for another
count. -/
def Obligations.PstepFinishesTheDecode : Prop :=
  (∀ (s t : State) (e : Event), s.fsm ≠ .decode ∨ (s.curEvt = some e ∧ e.count ≠ 34) →
    exec .pstep s ≠ .next t) ∧
  ∀ (s : State) (e : Event) (w : SymW), s.Decoding e → e.count = 34 →
    symRead e s.idx.toNat = some w →
    (s.idx = 0#16 → s.bitCnt.toNat < 32 → checkLeading s.cfg w = false →
      ∃ t o, exec .pstep s = .next t ∧ s.Decoded t o s.lastAddr s.lastCmd s.lastValid ∧
        o.toNat = outcomeNat 3 0 0 0 0 0 34) ∧
    (1 ≤ s.idx.toNat → s.idx.toNat ≤ 32 → s.bitCnt.toNat < 32 →
      classifyBit s.cfg w = .invalid →
      ∃ t o, exec .pstep s = .next t ∧ s.Decoded t o s.lastAddr s.lastCmd s.lastValid ∧
        o.toNat = outcomeNat 4 0 0 0 0 0 34) ∧
    (1 ≤ s.idx.toNat → s.idx.toNat ≤ 32 → s.bitCnt.toNat = 31 →
      classifyBit s.cfg w ≠ .invalid →
      ∃ t o a c, exec .pstep s = .next t ∧ s.Decoded t o a c true ∧
        a.toNat + c.toNat * 2 ^ 16 =
          s.sr.toNat / 2 + (if classifyBit s.cfg w = .one then 2 ^ 31 else 0) ∧
        o.toNat =
          if (lookup s.cfg (cmdKey c)).1 then
            outcomeNat 1 1 1 (lookup s.cfg (cmdKey c)).2.toNat a.toNat c.toNat 34
          else outcomeNat 2 1 0 0 a.toNat c.toNat 34)

/-- R140: from the initial values of R141, at most 33 micro-steps finish with exactly what the atomic
DECODE does, SR, BITCNT and IDX apart, and the count of free values, which the atomic form alone uses
(log 9). -/
def Obligations.PstepRunEqualsDecode : Prop :=
  ∀ (s : State) (e : Event), s.Decoding e → e.count = 34 →
    s.sr = 0#32 → s.bitCnt = 0#6 → s.idx = 0#16 →
    ∃ n t u, 1 ≤ n ∧ n ≤ 33 ∧ execAll (List.replicate n .pstep) s = .next t ∧
      exec .decode s = .next u ∧ u.agree t

/-! ## Dispatcher (spec/42_dispatcher.md) -/

/-- R160, R161: DISPATCH takes the path COUNT selects; on the normal path each parse result has its
outcome word and its new last pair. -/
def Obligations.DispatchSelectsThePathByCount : Prop :=
  ∀ (e : Event) (s : State), eventOk s.cfg e = true →
    (e.count = 2 → exec (.dispatch e) s = exec (.repeatp e) s) ∧
    (e.count ≠ 34 → e.count ≠ 2 → exec (.dispatch e) s = exec (.unknownFramePath e) s) ∧
    (e.count = 34 → ∀ r, exec (.parse e) s = .next { s with comb := .parsed r } →
      ∃ o la lc lv,
        exec (.dispatch e) s = .next { s with comb := .dispatched ⟨o, la, lc, lv⟩ } ∧
        match r with
        | .ok a c =>
          la = a ∧ lc = c ∧ lv = true ∧
            o.toNat =
              if (lookup s.cfg (cmdKey c)).1 then
                outcomeNat 1 1 1 (lookup s.cfg (cmdKey c)).2.toNat a.toNat c.toNat 34
              else outcomeNat 2 1 0 0 a.toNat c.toNat 34
        | .badLeading =>
          la = s.lastAddr ∧ lc = s.lastCmd ∧ lv = s.lastValid ∧ o.toNat = outcomeNat 3 0 0 0 0 0 34
        | .badBit =>
          la = s.lastAddr ∧ lc = s.lastCmd ∧ lv = s.lastValid ∧ o.toNat = outcomeNat 4 0 0 0 0 0 34)

/-- R160: DISPATCH is total: it completes for every well-formed event, whatever its count. -/
def Obligations.DispatchIsTotal : Prop :=
  ∀ (e : Event) (s : State), configOk s.cfg = true → eventOk s.cfg e = true →
    ∃ o la lc lv,
      exec (.dispatch e) s = .next { s with comb := .dispatched ⟨o, la, lc, lv⟩ } ∧
      wordCount o = e.count

/-- R163: LOOKUP reads the entry of the key: HIT and the label where the table maps the key, both
zero where it does not. The table is sparse with rising keys (log 24). -/
def Obligations.LookupReadsTheTable : Prop :=
  ∀ (key : BitVec 8) (s : State), keysRising s.cfg.cmdTable = true →
    (∀ l, (key, l) ∈ s.cfg.cmdTable →
      exec (.lookup key) s = .next { s with comb := .entry true l }) ∧
    ((∀ l, (key, l) ∉ s.cfg.cmdTable) →
      exec (.lookup key) s = .next { s with comb := .entry false 0x00#8 })

/-- R168, R169: the repeat path: the last pair and its lookup when there is one, zero fields when
there is none, NOT_REPEAT when symbol 0 fails the check; the last pair is never written. -/
def Obligations.RepeatPathReportsTheLastPair : Prop :=
  ∀ (e : Event) (w : SymW) (s : State), eventOk s.cfg e = true → e.count = 2 →
    symRead e 0 = some w →
    ∃ o,
      exec (.repeatp e) s =
        .next { s with comb := .dispatched ⟨o, s.lastAddr, s.lastCmd, s.lastValid⟩ } ∧
      o.toNat =
        if checkRepeat s.cfg w then
          if s.lastValid then
            outcomeNat 5 1 (lookup s.cfg (cmdKey s.lastCmd)).1.toNat
              (lookup s.cfg (cmdKey s.lastCmd)).2.toNat s.lastAddr.toNat s.lastCmd.toNat 2
          else outcomeNat 5 0 0 0 0 0 2
        else outcomeNat 6 0 0 0 0 0 2

/-- R170: every other length reports UNKNOWN_FRAME with its count and writes no last pair. -/
def Obligations.UnknownFramePathReportsTheCount : Prop :=
  ∀ (e : Event) (s : State), configOk s.cfg = true → eventOk s.cfg e = true →
    e.count ≠ 34 → e.count ≠ 2 →
    ∃ o,
      exec (.unknownFramePath e) s =
        .next { s with comb := .dispatched ⟨o, s.lastAddr, s.lastCmd, s.lastValid⟩ } ∧
      o.toNat = outcomeNat 7 0 0 0 0 0 e.count

/-- R164, R165, R162: a good frame emits KEY or UNMAPPED_KEY by the lookup of its upper command byte
and becomes the last pair. That the
outcome operation is this DECODE step is the model's reading of the table's rows (log 7). -/
def Obligations.GoodFrameEmitsKeyOrUnmappedKey : Prop :=
  ∀ (s : State) (e : Event) (a c : BitVec 16) (lab : BitVec 8), s.Decoding e → e.count = 34 →
    parse s.cfg e = some (.ok a c) →
    (lookup s.cfg (cmdKey c) = (true, lab) →
      ∃ t o, exec (.outKey ⟨true, true, lab, a, c, 34#16⟩) s = .next t ∧
        exec .decode s = .next t ∧ s.Decoded t o a c true ∧
        o.toNat = outcomeNat 1 1 1 lab.toNat a.toNat c.toNat 34) ∧
    ((lookup s.cfg (cmdKey c)).1 = false →
      ∃ t o, exec (.outUnmappedKey ⟨true, false, 0#8, a, c, 34#16⟩) s = .next t ∧
        exec .decode s = .next t ∧ s.Decoded t o a c true ∧
        o.toNat = outcomeNat 2 1 0 0 a.toNat c.toNat 34)

/-- R166, R167: a rejected frame emits BAD_LEADING or BAD_BIT and leaves the last pair alone. That
the outcome operation is this DECODE step is the model's reading (log 7). -/
def Obligations.RejectedFrameKeepsTheLastPair : Prop :=
  ∀ (s : State) (e : Event), s.Decoding e → e.count = 34 →
    (parse s.cfg e = some .badLeading →
      ∃ t o, exec (.outBadLeading ⟨false, false, 0#8, 0#16, 0#16, 34#16⟩) s = .next t ∧
        exec .decode s = .next t ∧ s.Decoded t o s.lastAddr s.lastCmd s.lastValid ∧
        o = 0x0022000000000003#64) ∧
    (parse s.cfg e = some .badBit →
      ∃ t o, exec (.outBadBit ⟨false, false, 0#8, 0#16, 0#16, 34#16⟩) s = .next t ∧
        exec .decode s = .next t ∧ s.Decoded t o s.lastAddr s.lastCmd s.lastValid ∧
        o = 0x0022000000000004#64)

/-- R168, R169: a count-2 event emits REPEAT, with the last pair where it is valid, or NOT_REPEAT;
the last pair and the parser's registers stay. That the outcome operation is this DECODE step is the
model's reading (log 7). -/
def Obligations.RepeatFrameEmitsRepeatOrNotRepeat : Prop :=
  ∀ (s : State) (e : Event) (w : SymW), s.Decoding e → e.count = 2 → symRead e 0 = some w →
    (checkRepeat s.cfg w = true → s.lastValid = true →
      ∃ t o,
        exec (.outRepeat ⟨true, (lookup s.cfg (cmdKey s.lastCmd)).1,
          (lookup s.cfg (cmdKey s.lastCmd)).2, s.lastAddr, s.lastCmd, 2#16⟩) s = .next t ∧
        exec .decode s = .next t ∧ s.Decoded t o s.lastAddr s.lastCmd s.lastValid ∧
        s.SameParser t ∧
        o.toNat = outcomeNat 5 1 (lookup s.cfg (cmdKey s.lastCmd)).1.toNat
          (lookup s.cfg (cmdKey s.lastCmd)).2.toNat s.lastAddr.toNat s.lastCmd.toNat 2) ∧
    (checkRepeat s.cfg w = true → s.lastValid = false →
      ∃ t o, exec (.outRepeat ⟨false, false, 0#8, 0#16, 0#16, 2#16⟩) s = .next t ∧
        exec .decode s = .next t ∧ s.Decoded t o s.lastAddr s.lastCmd s.lastValid ∧
        s.SameParser t ∧ o = 0x0002000000000005#64) ∧
    (checkRepeat s.cfg w = false →
      ∃ t o, exec (.outNotRepeat ⟨false, false, 0#8, 0#16, 0#16, 2#16⟩) s = .next t ∧
        exec .decode s = .next t ∧ s.Decoded t o s.lastAddr s.lastCmd s.lastValid ∧
        s.SameParser t ∧ o = 0x0002000000000006#64)

/-- R170: an event of any other count emits UNKNOWN_FRAME; the last pair and the parser's registers
stay. That the outcome operation is this DECODE step is the model's reading (log 7). -/
def Obligations.OtherLengthEmitsUnknownFrame : Prop :=
  ∀ (s : State) (e : Event), configOk s.cfg = true → s.Decoding e →
    e.count ≠ 34 → e.count ≠ 2 →
    ∃ t o,
      exec (.outUnknownFrame ⟨false, false, 0#8, 0#16, 0#16, BitVec.ofNat 16 e.count⟩) s = .next t ∧
      exec .decode s = .next t ∧ s.Decoded t o s.lastAddr s.lastCmd s.lastValid ∧
      s.SameParser t ∧ o.toNat = outcomeNat 7 0 0 0 0 0 e.count

/-- The model's reading of the outcome rows (log 7): an outcome operation is taken exactly when DECODE
is and emits that word, and then it is DECODE. -/
def Obligations.OutcomeOperationIsTheDecodeThatEmitsIt : Prop :=
  ∀ (f : OutFields) (s t : State),
    (exec (.outKey f) s = .next t ↔
      exec .decode s = .next t ∧ t.out = s.out ++ [mkOutcome 0x1#4 f]) ∧
    (exec (.outUnmappedKey f) s = .next t ↔
      exec .decode s = .next t ∧ t.out = s.out ++ [mkOutcome 0x2#4 f]) ∧
    (exec (.outBadLeading f) s = .next t ↔
      exec .decode s = .next t ∧ t.out = s.out ++ [mkOutcome 0x3#4 f]) ∧
    (exec (.outBadBit f) s = .next t ↔
      exec .decode s = .next t ∧ t.out = s.out ++ [mkOutcome 0x4#4 f]) ∧
    (exec (.outRepeat f) s = .next t ↔
      exec .decode s = .next t ∧ t.out = s.out ++ [mkOutcome 0x5#4 f]) ∧
    (exec (.outNotRepeat f) s = .next t ↔
      exec .decode s = .next t ∧ t.out = s.out ++ [mkOutcome 0x6#4 f]) ∧
    (exec (.outUnknownFrame f) s = .next t ↔
      exec .decode s = .next t ∧ t.out = s.out ++ [mkOutcome 0x7#4 f])

/-- R171, R162: in every state a run reaches, the last pair changes only by RESET or by the decoding
of a count-34 event whose PARSE is Ok, and then to that pair. -/
def Obligations.LastPairWrittenOnlyByGoodFrames : Prop :=
  ∀ (i : Instr) (s t : State), s.Inv → s.ParserProgress → exec i s = .next t →
    (t.lastAddr = s.lastAddr ∧ t.lastCmd = s.lastCmd ∧ t.lastValid = s.lastValid) ∨
    i = .reset ∨
    (s.fsm = .decode ∧ t.lastValid = true ∧
      ∃ e, s.curEvt = some e ∧ e.count = 34 ∧
        parse s.cfg e = some (.ok t.lastAddr t.lastCmd))

/-- R172, R41: an operation emits at most one word; it emits one only in DECODE, gives CUR_EVT up and
goes to ARM, and in a state a run reaches the word's COUNT is the count of the event. -/
def Obligations.OneOutcomePerDecodedEvent : Prop :=
  ∀ (i : Instr) (s t : State), s.Inv → exec i s = .next t →
    t.out = s.out ∨
    ∃ o e, t.out = s.out ++ [o] ∧ s.fsm = .decode ∧ s.curEvt = some e ∧ wordCount o = e.count ∧
      t.fsm = .arm ∧ t.curEvt = none

/-- R41: emitted words are never withdrawn, RESET included. -/
def Obligations.EmittedWordsAreNeverWithdrawn : Prop :=
  ∀ (n : Nat) (s t : State), steps n s = .next t → ∃ os, t.out = s.out ++ os ∧ os.length ≤ n

/-- R173, R75: in every word an operation emits, LV is 1 exactly for KEY, UNMAPPED_KEY, and REPEAT when
LAST_VALID was 1; MAPPED exactly with LV when the upper byte of CMD hits, and LABEL is then its label;
every field the code does not define is zero. -/
def Obligations.OutcomeFieldsFollowTheCode : Prop :=
  ∀ (i : Instr) (s t : State) (o : OutW), exec i s = .next t → t.out = s.out ++ [o] →
    let code := o.toNat % 16
    let lv := o.getLsbD 4
    let mapped := o.getLsbD 5
    let label := o.extractLsb' 8 8
    let addr := o.extractLsb' 16 16
    let cmd := o.extractLsb' 32 16
    1 ≤ code ∧ code ≤ 7 ∧ o.extractLsb' 6 2 = 0#2 ∧
      (lv = true ↔ code = 1 ∨ code = 2 ∨ (code = 5 ∧ s.lastValid = true)) ∧
      (mapped = true ↔ lv = true ∧ (lookup s.cfg (cmdKey cmd)).1 = true) ∧
      label = (if mapped then (lookup s.cfg (cmdKey cmd)).2 else 0x00#8) ∧
      (lv = false → addr = 0x0000#16 ∧ cmd = 0x0000#16)

/-- R62: the outcome of an event depends on the event, the configuration and the last pair alone. -/
def Obligations.OutcomeDependsOnEventAndLastPairAlone : Prop :=
  ∀ s s' t t' : State, s.cfg = s'.cfg → s.curEvt = s'.curEvt → s.lastAddr = s'.lastAddr →
    s.lastCmd = s'.lastCmd → s.lastValid = s'.lastValid →
    exec .decode s = .next t → exec .decode s' = .next t' →
    (∃ o, t.out = s.out ++ [o] ∧ t'.out = s'.out ++ [o]) ∧
      t.lastAddr = t'.lastAddr ∧ t.lastCmd = t'.lastCmd ∧ t.lastValid = t'.lastValid

/-- The source's first property (95_test_vectors.md, L1-1 and L1-4): in every well-formed
configuration, a frame built of the nominal words of a and c, with any last symbol, decodes to exactly
a and c. -/
def Obligations.NominalFrameDecodesToItsPair : Prop :=
  ∀ (s : State) (a c : BitVec 16) (last : SymW), configOk s.cfg = true → s.fsm = .decode →
    s.cfg.tLeadH < 32768 → s.cfg.tLeadL < 32768 → s.cfg.tZeroH < 32768 → s.cfg.tZeroL < 32768 →
    s.cfg.tOneH < 32768 → s.cfg.tOneL < 32768 →
    s.curEvt = some ⟨34, frameSyms (nominalWord s.cfg.tLeadH s.cfg.tLeadL)
      (nominalWord s.cfg.tOneH s.cfg.tOneL) (nominalWord s.cfg.tZeroH s.cfg.tZeroL) last a c⟩ →
    ∃ t o, exec .decode s = .next t ∧ s.Decoded t o a c true ∧
      o.toNat =
        if (lookup s.cfg (cmdKey c)).1 then
          outcomeNat 1 1 1 (lookup s.cfg (cmdKey c)).2.toNat a.toNat c.toNat 34
        else outcomeNat 2 1 0 0 a.toNat c.toNat 34

/-! ## Control FSM (spec/43_receive_fsm.md) -/

/-- R191: ARM_OK is taken in ARM alone, and there: ARMED 1, RETRY_CNT 0, STATE WAIT, nothing else. -/
def Obligations.ArmOkArmsAndWaits : Prop :=
  ∀ s : State,
    (Enabled .armOk s ↔ s.fsm = .arm) ∧
    (s.fsm = .arm →
      exec .armOk s = .next { s with armed := true, retryCnt := 0, fsm := .wait })

/-- R192: ARM_FAIL is taken in ARM alone, and there it counts a retry while one is left, else STATE is
FAULT; nothing else. -/
def Obligations.ArmFailRetriesThenFaults : Prop :=
  ∀ s : State,
    (Enabled .armFail s ↔ s.fsm = .arm) ∧
    (s.fsm = .arm → s.retryCnt < s.cfg.rearmRetries →
      exec .armFail s = .next { s with retryCnt := s.retryCnt + 1, fsm := .arm }) ∧
    (s.fsm = .arm → ¬ s.retryCnt < s.cfg.rearmRetries →
      exec .armFail s = .next { s with fsm := .fault })

/-- R192: with REARM_RETRIES = N, N failures in a row stay in ARM and the next one enters FAULT. -/
def Obligations.RetriesRunOutAtTheLimit : Prop :=
  ∀ s : State, s.fsm = .arm → s.retryCnt = 0 →
    (∀ k, k ≤ s.cfg.rearmRetries →
      execAll (List.replicate k .armFail) s = .next { s with retryCnt := k }) ∧
    execAll (List.replicate (s.cfg.rearmRetries + 1) .armFail) s =
      .next { s with retryCnt := s.cfg.rearmRetries, fsm := .fault }

/-- R193, R194, R55: POST is enabled exactly when the front end may post and the event is well formed, in
every STATE; then it clears ARMED and puts the event at the tail, or drops it when QDEPTH events are
queued; it always completes (R204). -/
def Obligations.PostQueuesAtTheTailOrDrops : Prop :=
  ∀ (e : Event) (s : State),
    (Enabled (.post e) s ↔
      (s.armed = true ∨ s.cfg.postWhenDisarmed = true) ∧
        e.count ≤ s.cfg.bufDepth ∧ e.count = e.sym.length) ∧
    ((s.armed = true ∨ s.cfg.postWhenDisarmed = true) → eventOk s.cfg e = true →
      (s.queue.length < s.cfg.qdepth →
        exec (.post e) s = .next { s with armed := false, queue := s.queue ++ [e] }) ∧
      (¬ s.queue.length < s.cfg.qdepth → exec (.post e) s = .next { s with armed := false }))

/-- R201: in a fair run (log 27), from a state that meets the invariant: STATE stays ARM until ARM_OK or
ARM_FAIL is taken, and one is; with an event queued in WAIT, DEQUEUE is taken, or RESET; from DECODE the
controller comes to ARM. RESET also brings it there, with no outcome for the event (R269), so no outcome
is promised. -/
def Obligations.FairRunsMakeProgress : Prop :=
  ∀ (r : Run) (n : Nat), r.Fair → (r.state n).Inv →
    ((r.state n).fsm = .arm →
      ∃ m, n ≤ m ∧ (r.op m = .armOk ∨ r.op m = .armFail) ∧
        ∀ k, n ≤ k → k ≤ m → (r.state k).fsm = .arm) ∧
    ((r.state n).fsm = .wait → (r.state n).queue ≠ [] →
      ∃ m, n ≤ m ∧ (r.op m = .dequeue ∨ r.op m = .reset)) ∧
    ((r.state n).fsm = .decode → ∃ m, n < m ∧ (r.state m).fsm = .arm)

/-- R195: DEQUEUE is taken in WAIT with a non-empty queue alone, and takes its head; for count 34 it
starts the parser. -/
def Obligations.DequeueTakesTheHead : Prop :=
  ∀ s : State,
    (Enabled .dequeue s ↔ s.fsm = .wait ∧ s.queue ≠ []) ∧
    ∀ (e : Event) (q : List Event), s.fsm = .wait → s.queue = e :: q →
      (e.count = 34 →
        exec .dequeue s = .next { s with
          curEvt := some e, queue := q, fsm := .decode, sr := 0#32, bitCnt := 0#6, idx := 0#16 }) ∧
      (e.count ≠ 34 →
        exec .dequeue s = .next { s with curEvt := some e, queue := q, fsm := .decode })

/-- R196: TIMEOUT completes in WAIT with an empty queue and changes no state; elsewhere it is not
enabled. -/
def Obligations.TimeoutChangesNothing : Prop :=
  ∀ s : State,
    (s.fsm = .wait → s.queue = [] → exec .timeout s = .next s) ∧
    (¬ (s.fsm = .wait ∧ s.queue = []) → exec .timeout s = .refused .notEnabled)

/-- R197, R198: DECODE is taken in DECODE alone; for a well-formed event it completes, applies DISPATCH,
emits its word and leads to ARM whatever the word. -/
def Obligations.DecodeAppliesDispatch : Prop :=
  (∀ s : State, Enabled .decode s → s.fsm = .decode) ∧
  ∀ (s : State) (e : Event), s.Decoding e →
    ∃ t o la lc lv,
      exec (.dispatch e) s = .next { s with comb := .dispatched ⟨o, la, lc, lv⟩ } ∧
      exec .decode s = .next t ∧ s.Decoded t o la lc lv ∧ (e.count ≠ 34 → s.SameParser t)

/-- R199, R233: FAULT is entered only by ARM_FAIL in ARM with no retry left, no controller step is
enabled in it, and only RESET leaves it. -/
def Obligations.FaultIsStickyAndEnteredOnlyByArmFail : Prop :=
  ∀ (i : Instr) (s t : State), exec i s = .next t →
    (s.fsm = .fault → i = .reset ∨
      (t.fsm = .fault ∧ i ≠ .armOk ∧ i ≠ .armFail ∧ i ≠ .dequeue ∧ i ≠ .timeout ∧ i ≠ .decode ∧
        i ≠ .pstep)) ∧
    (s.fsm ≠ .fault → t.fsm = .fault →
      i = .armFail ∧ s.fsm = .arm ∧ ¬ s.retryCnt < s.cfg.rearmRetries)

/-- R60, R55, R268: the outcomes of the queued events come in the order they were posted, one for each:
dequeue, decode and re-arm once for each queued event. The i-th word is the one DISPATCH gives the i-th
event with the last pair that those before it left. -/
def Obligations.OutcomesFollowTheQueueOrder : Prop :=
  ∀ s : State, configOk s.cfg = true → s.fsm = .wait →
    (∀ e, e ∈ s.queue → eventOk s.cfg e = true) →
    ∃ t os,
      execAll (List.replicate s.queue.length [.dequeue, .decode, .armOk]).flatten s = .next t ∧
      t.out = s.out ++ os ∧
      dispatchAll s.cfg s.queue s.lastAddr s.lastCmd s.lastValid
        = some (os, t.lastAddr, t.lastCmd, t.lastValid) ∧
      os.map wordCount = s.queue.map Event.count ∧ t.queue = [] ∧ t.fsm = .wait

/-- R140, R235: a POST and the DECODE of the event in hand commute: either may go first. -/
def Obligations.PostAndDecodeCommute : Prop :=
  ∀ (e e' : Event) (s : State), s.Decoding e →
    (s.armed = true ∨ s.cfg.postWhenDisarmed = true) → eventOk s.cfg e' = true →
    ∃ t, execAll [.post e', .decode] s = .next t ∧ execAll [.decode, .post e'] s = .next t

/-! ## Reset (spec/70_reset_and_hazards.md, spec/10_state.md) -/

/-- R260: RESET completes in any state: every register at its reset value, no outcome emitted or
withdrawn, the configuration as before. -/
def Obligations.ResetWritesEveryRegister : Prop :=
  ∀ s : State,
    exec .reset s = .next { s with
      fsm := .arm, armed := false, retryCnt := 0, queue := [], curEvt := none
      lastAddr := 0x0000#16, lastCmd := 0x0000#16, lastValid := false
      sr := 0x0000_0000#32, bitCnt := 0#6, idx := 0#16 }

/-- R42: the reset value of every piece of state and of every status output. -/
def Obligations.ResetValuesAsListed : Prop :=
  ∀ cfg : Config,
    let s := State.powerOn cfg
    s.fsm = .arm ∧ s.armed = false ∧ s.retryCnt = 0 ∧ s.queue = [] ∧ s.curEvt = none ∧
    s.lastAddr = 0x0000#16 ∧ s.lastCmd = 0x0000#16 ∧ s.lastValid = false ∧ s.sr = 0x0000_0000#32 ∧
    s.bitCnt = 0#6 ∧ s.idx = 0#16 ∧ s.cfg = cfg ∧
    stState s = 0b000#3 ∧ stFault s = false ∧ stArmed s = false ∧ stQlen s = 0#16 ∧
    stLastValid s = false ∧ stLastAddr s = 0x0000#16 ∧ stLastCmd s = 0x0000#16 ∧
    State.reset = State.powerOn State.reset.cfg

/-- R37: the status outputs copy the state. -/
def Obligations.StatusOutputsCopyTheState : Prop :=
  ∀ s : State,
    (stState s = 0b000#3 ↔ s.fsm = .arm) ∧ (stState s = 0b001#3 ↔ s.fsm = .wait) ∧
    (stState s = 0b010#3 ↔ s.fsm = .decode) ∧ (stState s = 0b111#3 ↔ s.fsm = .fault) ∧
    (stFault s = true ↔ s.fsm = .fault) ∧ stArmed s = s.armed ∧
    (s.queue.length < 65536 → (stQlen s).toNat = s.queue.length) ∧
    stLastValid s = s.lastValid ∧ stLastAddr s = s.lastAddr ∧ stLastCmd s = s.lastCmd

/-! ## Steps and invariants -/

/-- A step runs the decoded operation: the first transaction of the script, taken off it, or a free
one where the script is empty (log 1, log 2). A transaction that decodes to nothing is refused. -/
def Obligations.StepRunsTheDecodedOperation : Prop :=
  ∀ s : State, configOk s.cfg = true →
    (∀ x rest i, s.stim = x :: rest → decodeXact x = .ok i →
      step s = exec i { s with stim := rest }) ∧
    (∀ x rest r, s.stim = x :: rest → decodeXact x = .error r →
      step s = .refused (.undecodable r)) ∧
    (s.stim = [] →
      step s =
        match decodeXact (Config.freeXact s.draws) with
        | .ok i => exec i { s with draws := s.draws + 1 }
        | .error r => .refused (.undecodable r))

/-- The invariants hold right after reset, in every well-formed configuration. -/
def Obligations.InvariantsHoldAtReset : Prop :=
  State.reset.Inv ∧
  ∀ cfg : Config, configOk cfg = true →
    (State.powerOn cfg).Inv ∧ (State.powerOn cfg).OneReception ∧ (State.powerOn cfg).ParserProgress

/-- R23, R24, R25, R29, R31, R32, R51, R75, R262: every step keeps the invariant. -/
def Obligations.EveryStepKeepsTheInvariant : Prop :=
  ∀ s t : State, s.Inv → step s = .next t → t.Inv

/-- R194: where POST_WHEN_DISARMED is false every step keeps at most one reception under way. -/
def Obligations.EveryStepKeepsOneReception : Prop :=
  ∀ s t : State, s.Inv → s.OneReception → step s = .next t → t.OneReception

/-- R139, R140: every step keeps the parser's registers in agreement with the event being parsed. -/
def Obligations.EveryStepKeepsTheParserProgress : Prop :=
  ∀ s t : State, s.Inv → s.ParserProgress → step s = .next t → t.ParserProgress

/-- R233, R52: from a state a run reaches, a run in which the front end never answers an arm request
with fail is safe: it never reaches FAULT and meets no internal error. -/
def Obligations.RunsWithoutArmFailureAreSafe : Prop :=
  ∀ (n : Nat) (s : State), s.Inv → s.fsm ≠ .fault →
    (∀ k t, k < n → steps k s = .next t → decodeXact (nextXact t).1 ≠ .ok .armFail) →
    SafeRun n s
end

