-- ==== Sys2Proof/Laws/Decode.lean ====
section
/-! SUPPORT. Lemmas about words, events and outcome words, and their encodings. -/

namespace Sys2Proof

/-! ## Symbol words -/

@[simp] theorem symWord?_toNat (w : SymW) : symWord? w.toNat = some w := by
  have h : w.toNat < 4294967296 := w.isLt
  simp [symWord?, h]

theorem symWord?_eq_some {n : Nat} {w : SymW} :
    symWord? n = some w ↔ n < 4294967296 ∧ w = BitVec.ofNat 32 n := by
  unfold symWord?
  split <;> simp_all [eq_comm]

@[simp] theorem symWords?_map_toNat (ws : List SymW) :
    symWords? (ws.map BitVec.toNat) = some ws := by
  induction ws with
  | nil => rfl
  | cons w ws ih => simp [symWords?, ih]

theorem symWords?_eq_some {ns : List Nat} {ws : List SymW} :
    symWords? ns = some ws ↔ (∀ n, n ∈ ns → n < 4294967296) ∧ ws = ns.map (BitVec.ofNat 32) := by
  induction ns generalizing ws with
  | nil => simp [symWords?, eq_comm]
  | cons n ns ih =>
    simp only [symWords?, List.mem_cons, forall_eq_or_imp, List.map_cons]
    by_cases hn : n < 4294967296
    · rw [symWord?_eq_some.2 ⟨hn, rfl⟩]
      by_cases hs : ∀ m, m ∈ ns → m < 4294967296
      · rw [ih.2 ⟨hs, rfl⟩]
        have hall : ∀ m, m ∈ ns → m < 4294967296 := hs
        constructor
        · rintro ⟨⟩; exact ⟨⟨hn, hall⟩, rfl⟩
        · rintro ⟨-, rfl⟩; rfl
      · have : symWords? ns = none := by
          rcases h : symWords? ns with _ | vs
          · rfl
          · exact absurd (ih.1 h).1 hs
        simp [this, hs]
    · have : symWord? n = none := by simp [symWord?, hn]
      simp [this, hn]

/-! ## Events -/

theorem fitsHeader_iff {e : Event} :
    e.fitsHeader = true ↔ e.count < 65536 ∧ e.count = e.sym.length := by
  simp [Event.fitsHeader]

theorem decodeEvent_encodeEvent (p : Port) {e : Event} (h : e.fitsHeader = true) :
    decodeEvent p (encodeEvent e) = .ok e := by
  obtain ⟨h1, h2⟩ := fitsHeader_iff.1 h
  have a : ¬ 4294967296 ≤ e.count := by omega
  have b : ¬ 65536 ≤ e.count := by omega
  simp only [encodeEvent, decodeEvent, a, b, if_false, symWords?_map_toNat, ← h2, if_true]

/-! ## Outcome words: each field of `mkOutcome` reads back -/

section
variable (code : BitVec 4) (f : OutFields)

theorem mkOutcome_toNat :
    (mkOutcome code f).toNat = f.count.toNat * 2 ^ 48 + f.cmd.toNat * 2 ^ 32 + f.addr.toNat * 2 ^ 16
      + f.label.toNat * 2 ^ 8 + f.mapped.toNat * 2 ^ 5 + f.lv.toNat * 2 ^ 4 + code.toNat := by
  have e (a b n : Nat) (h : b < 2 ^ n) : a <<< n ||| b = a * 2 ^ n + b := by
    rw [← Nat.shiftLeft_add_eq_or_of_lt h, Nat.shiftLeft_eq]
  unfold mkOutcome
  simp only [BitVec.toNat_append, BitVec.toNat_ofBool]
  rw [e _ _ 16 f.cmd.isLt, e _ _ 16 f.addr.isLt, e _ _ 8 f.label.isLt, e _ _ 2 (by decide),
    e _ _ 1 f.mapped.toNat_lt, e _ _ 1 f.lv.toNat_lt, e _ _ 4 code.isLt]
  simp only [BitVec.toNat_ofNat, Nat.zero_mod]
  omega

theorem mkOutcome_bounds :
    f.count.toNat < 65536 ∧ f.cmd.toNat < 65536 ∧ f.addr.toNat < 65536 ∧ f.label.toNat < 256 ∧
      f.mapped.toNat < 2 ∧ f.lv.toNat < 2 ∧ code.toNat < 16 :=
  ⟨f.count.isLt, f.cmd.isLt, f.addr.isLt, f.label.isLt, f.mapped.toNat_lt, f.lv.toNat_lt, code.isLt⟩

@[simp] theorem outCode_mkOutcome : outCode (mkOutcome code f) = code := by
  apply BitVec.eq_of_toNat_eq
  have := mkOutcome_bounds code f
  simp only [outCode, BitVec.extractLsb'_toNat, mkOutcome_toNat, Nat.shiftRight_eq_div_pow]
  omega

@[simp] theorem outReserved_mkOutcome : outReserved (mkOutcome code f) = 0#2 := by
  apply BitVec.eq_of_toNat_eq
  have := mkOutcome_bounds code f
  simp only [outReserved, BitVec.extractLsb'_toNat, mkOutcome_toNat, Nat.shiftRight_eq_div_pow,
    BitVec.toNat_ofNat]
  omega

theorem bool_of_testBit {w : OutW} {i : Nat} {b : Bool} (h : w.toNat / 2 ^ i % 2 = b.toNat) :
    w.getLsbD i = b := by
  rw [BitVec.getLsbD, Nat.testBit_eq_decide_div_mod_eq, h]
  cases b <;> decide

@[simp] theorem outFields_mkOutcome : outFields (mkOutcome code f) = f := by
  have := mkOutcome_bounds code f
  obtain ⟨lv, mapped, label, addr, cmd, count⟩ := f
  simp only [outFields, OutFields.mk.injEq]
  refine ⟨bool_of_testBit ?_, bool_of_testBit ?_, ?_, ?_, ?_, ?_⟩
  case refine_1 => simp only [mkOutcome_toNat] at *; omega
  case refine_2 => simp only [mkOutcome_toNat] at *; omega
  all_goals
    apply BitVec.eq_of_toNat_eq
    simp only [BitVec.extractLsb'_toNat, mkOutcome_toNat, Nat.shiftRight_eq_div_pow] at *
    omega

end

theorem mkOutcome_lt (code : BitVec 4) (f : OutFields) :
    (mkOutcome code f).toNat < 18446744073709551616 := (mkOutcome code f).isLt

/-- The decoder on a word built from legal fields: CODE alone decides. -/
theorem decodeOutcome_mkOutcome {code : BitVec 4} {f : OutFields} (h : f.legal = true) :
    decodeOutcome (mkOutcome code f) =
      match code.toNat with
      | 1 => .ok (.outKey f)
      | 2 => .ok (.outUnmappedKey f)
      | 3 => .ok (.outBadLeading f)
      | 4 => .ok (.outBadBit f)
      | 5 => .ok (.outRepeat f)
      | 6 => .ok (.outNotRepeat f)
      | 7 => .ok (.outUnknownFrame f)
      | _ => .error .reservedOutcomeCode := by
  simp only [OutFields.legal, Bool.and_eq_true, Bool.or_eq_true, beq_iff_eq] at h
  obtain ⟨h1, h2⟩ := h
  simp only [decodeOutcome, outReserved_mkOutcome, outFields_mkOutcome, outCode_mkOutcome]
  have a : ¬ (f.mapped = false ∧ f.label ≠ 0#8) := by
    rintro ⟨ha, hb⟩; rcases h1 with h1 | h1 <;> simp_all
  have b : ¬ (f.lv = false ∧ (f.addr ≠ 0#16 ∨ f.cmd ≠ 0#16)) := by
    rintro ⟨ha, hb⟩; rcases h2 with h2 | h2 <;> simp_all
  exact (if_neg (fun h => h rfl)).trans ((if_neg a).trans (if_neg b))

/-! ## Table entries -/

@[simp] theorem entryHit_mkEntry (l : Option (BitVec 8)) : entryHit (mkEntry l) = l.isSome := by
  cases l with
  | none => decide
  | some v =>
    have := v.isLt
    simp only [entryHit, mkEntry, Option.isSome_some, BitVec.getLsbD, BitVec.toNat_append,
      BitVec.toNat_ofBool, Nat.testBit_eq_decide_div_mod_eq, decide_eq_true_eq]
    rw [← Nat.shiftLeft_add_eq_or_of_lt this, Nat.shiftLeft_eq]
    simp only [Bool.toNat_true]
    omega

@[simp] theorem entryLabel_mkEntry (l : Option (BitVec 8)) :
    entryLabel (mkEntry l) = l.getD 0#8 := by
  cases l with
  | none => decide
  | some v =>
    have := v.isLt
    apply BitVec.eq_of_toNat_eq
    simp only [entryLabel, mkEntry, Option.getD_some, BitVec.extractLsb'_toNat,
      BitVec.toNat_append, BitVec.toNat_ofBool, Nat.shiftRight_zero]
    rw [← Nat.shiftLeft_add_eq_or_of_lt this, Nat.shiftLeft_eq]
    simp only [Bool.toNat_true]
    omega

end Sys2Proof
end

