-- ==== Sys2Proof/Laws/State.lean ====
section
/-! SUPPORT. What each named update of the state leaves in each field: one lemma per field per update,
true by rfl. -/

namespace Sys2Proof.Machine

section
variable (s : State)

/-! ### drive -/

@[simp] theorem drive_fsm (c : Comb) : (s.drive c).fsm = s.fsm := rfl
@[simp] theorem drive_armed (c : Comb) : (s.drive c).armed = s.armed := rfl
@[simp] theorem drive_retryCnt (c : Comb) : (s.drive c).retryCnt = s.retryCnt := rfl
@[simp] theorem drive_queue (c : Comb) : (s.drive c).queue = s.queue := rfl
@[simp] theorem drive_curEvt (c : Comb) : (s.drive c).curEvt = s.curEvt := rfl
@[simp] theorem drive_lastAddr (c : Comb) : (s.drive c).lastAddr = s.lastAddr := rfl
@[simp] theorem drive_lastCmd (c : Comb) : (s.drive c).lastCmd = s.lastCmd := rfl
@[simp] theorem drive_lastValid (c : Comb) : (s.drive c).lastValid = s.lastValid := rfl
@[simp] theorem drive_sr (c : Comb) : (s.drive c).sr = s.sr := rfl
@[simp] theorem drive_bitCnt (c : Comb) : (s.drive c).bitCnt = s.bitCnt := rfl
@[simp] theorem drive_idx (c : Comb) : (s.drive c).idx = s.idx := rfl
@[simp] theorem drive_cfg (c : Comb) : (s.drive c).cfg = s.cfg := rfl
@[simp] theorem drive_out (c : Comb) : (s.drive c).out = s.out := rfl
@[simp] theorem drive_comb (c : Comb) : (s.drive c).comb = c := rfl
@[simp] theorem drive_stim (c : Comb) : (s.drive c).stim = s.stim := rfl
@[simp] theorem drive_draws (c : Comb) : (s.drive c).draws = s.draws := rfl

/-! ### armDone -/

@[simp] theorem armDone_fsm : (s.armDone).fsm = .wait := rfl
@[simp] theorem armDone_armed : (s.armDone).armed = true := rfl
@[simp] theorem armDone_retryCnt : (s.armDone).retryCnt = 0 := rfl
@[simp] theorem armDone_queue : (s.armDone).queue = s.queue := rfl
@[simp] theorem armDone_curEvt : (s.armDone).curEvt = s.curEvt := rfl
@[simp] theorem armDone_lastAddr : (s.armDone).lastAddr = s.lastAddr := rfl
@[simp] theorem armDone_lastCmd : (s.armDone).lastCmd = s.lastCmd := rfl
@[simp] theorem armDone_lastValid : (s.armDone).lastValid = s.lastValid := rfl
@[simp] theorem armDone_sr : (s.armDone).sr = s.sr := rfl
@[simp] theorem armDone_bitCnt : (s.armDone).bitCnt = s.bitCnt := rfl
@[simp] theorem armDone_idx : (s.armDone).idx = s.idx := rfl
@[simp] theorem armDone_cfg : (s.armDone).cfg = s.cfg := rfl
@[simp] theorem armDone_out : (s.armDone).out = s.out := rfl
@[simp] theorem armDone_comb : (s.armDone).comb = s.comb := rfl
@[simp] theorem armDone_stim : (s.armDone).stim = s.stim := rfl
@[simp] theorem armDone_draws : (s.armDone).draws = s.draws := rfl

/-! ### retryArm -/

@[simp] theorem retryArm_fsm : (s.retryArm).fsm = .arm := rfl
@[simp] theorem retryArm_armed : (s.retryArm).armed = s.armed := rfl
@[simp] theorem retryArm_retryCnt : (s.retryArm).retryCnt = s.retryCnt + 1 := rfl
@[simp] theorem retryArm_queue : (s.retryArm).queue = s.queue := rfl
@[simp] theorem retryArm_curEvt : (s.retryArm).curEvt = s.curEvt := rfl
@[simp] theorem retryArm_lastAddr : (s.retryArm).lastAddr = s.lastAddr := rfl
@[simp] theorem retryArm_lastCmd : (s.retryArm).lastCmd = s.lastCmd := rfl
@[simp] theorem retryArm_lastValid : (s.retryArm).lastValid = s.lastValid := rfl
@[simp] theorem retryArm_sr : (s.retryArm).sr = s.sr := rfl
@[simp] theorem retryArm_bitCnt : (s.retryArm).bitCnt = s.bitCnt := rfl
@[simp] theorem retryArm_idx : (s.retryArm).idx = s.idx := rfl
@[simp] theorem retryArm_cfg : (s.retryArm).cfg = s.cfg := rfl
@[simp] theorem retryArm_out : (s.retryArm).out = s.out := rfl
@[simp] theorem retryArm_comb : (s.retryArm).comb = s.comb := rfl
@[simp] theorem retryArm_stim : (s.retryArm).stim = s.stim := rfl
@[simp] theorem retryArm_draws : (s.retryArm).draws = s.draws := rfl

/-! ### enterFault -/

@[simp] theorem enterFault_fsm : (s.enterFault).fsm = .fault := rfl
@[simp] theorem enterFault_armed : (s.enterFault).armed = s.armed := rfl
@[simp] theorem enterFault_retryCnt : (s.enterFault).retryCnt = s.retryCnt := rfl
@[simp] theorem enterFault_queue : (s.enterFault).queue = s.queue := rfl
@[simp] theorem enterFault_curEvt : (s.enterFault).curEvt = s.curEvt := rfl
@[simp] theorem enterFault_lastAddr : (s.enterFault).lastAddr = s.lastAddr := rfl
@[simp] theorem enterFault_lastCmd : (s.enterFault).lastCmd = s.lastCmd := rfl
@[simp] theorem enterFault_lastValid : (s.enterFault).lastValid = s.lastValid := rfl
@[simp] theorem enterFault_sr : (s.enterFault).sr = s.sr := rfl
@[simp] theorem enterFault_bitCnt : (s.enterFault).bitCnt = s.bitCnt := rfl
@[simp] theorem enterFault_idx : (s.enterFault).idx = s.idx := rfl
@[simp] theorem enterFault_cfg : (s.enterFault).cfg = s.cfg := rfl
@[simp] theorem enterFault_out : (s.enterFault).out = s.out := rfl
@[simp] theorem enterFault_comb : (s.enterFault).comb = s.comb := rfl
@[simp] theorem enterFault_stim : (s.enterFault).stim = s.stim := rfl
@[simp] theorem enterFault_draws : (s.enterFault).draws = s.draws := rfl

/-! ### resetRegs -/

@[simp] theorem resetRegs_fsm : (s.resetRegs).fsm = .arm := rfl
@[simp] theorem resetRegs_armed : (s.resetRegs).armed = false := rfl
@[simp] theorem resetRegs_retryCnt : (s.resetRegs).retryCnt = 0 := rfl
@[simp] theorem resetRegs_queue : (s.resetRegs).queue = [] := rfl
@[simp] theorem resetRegs_curEvt : (s.resetRegs).curEvt = none := rfl
@[simp] theorem resetRegs_lastAddr : (s.resetRegs).lastAddr = 0#16 := rfl
@[simp] theorem resetRegs_lastCmd : (s.resetRegs).lastCmd = 0#16 := rfl
@[simp] theorem resetRegs_lastValid : (s.resetRegs).lastValid = false := rfl
@[simp] theorem resetRegs_sr : (s.resetRegs).sr = 0#32 := rfl
@[simp] theorem resetRegs_bitCnt : (s.resetRegs).bitCnt = 0#6 := rfl
@[simp] theorem resetRegs_idx : (s.resetRegs).idx = 0#16 := rfl
@[simp] theorem resetRegs_cfg : (s.resetRegs).cfg = s.cfg := rfl
@[simp] theorem resetRegs_out : (s.resetRegs).out = s.out := rfl
@[simp] theorem resetRegs_comb : (s.resetRegs).comb = s.comb := rfl
@[simp] theorem resetRegs_stim : (s.resetRegs).stim = s.stim := rfl
@[simp] theorem resetRegs_draws : (s.resetRegs).draws = s.draws := rfl

/-! ### posted -/

@[simp] theorem posted_fsm (e : Event) : (s.posted e).fsm = s.fsm := rfl
@[simp] theorem posted_armed (e : Event) : (s.posted e).armed = false := rfl
@[simp] theorem posted_retryCnt (e : Event) : (s.posted e).retryCnt = s.retryCnt := rfl
@[simp] theorem posted_queue (e : Event) : (s.posted e).queue = enqueue s.cfg s.queue e := rfl
@[simp] theorem posted_curEvt (e : Event) : (s.posted e).curEvt = s.curEvt := rfl
@[simp] theorem posted_lastAddr (e : Event) : (s.posted e).lastAddr = s.lastAddr := rfl
@[simp] theorem posted_lastCmd (e : Event) : (s.posted e).lastCmd = s.lastCmd := rfl
@[simp] theorem posted_lastValid (e : Event) : (s.posted e).lastValid = s.lastValid := rfl
@[simp] theorem posted_sr (e : Event) : (s.posted e).sr = s.sr := rfl
@[simp] theorem posted_bitCnt (e : Event) : (s.posted e).bitCnt = s.bitCnt := rfl
@[simp] theorem posted_idx (e : Event) : (s.posted e).idx = s.idx := rfl
@[simp] theorem posted_cfg (e : Event) : (s.posted e).cfg = s.cfg := rfl
@[simp] theorem posted_out (e : Event) : (s.posted e).out = s.out := rfl
@[simp] theorem posted_comb (e : Event) : (s.posted e).comb = s.comb := rfl
@[simp] theorem posted_stim (e : Event) : (s.posted e).stim = s.stim := rfl
@[simp] theorem posted_draws (e : Event) : (s.posted e).draws = s.draws := rfl

/-! ### parserInit -/

@[simp] theorem parserInit_fsm : (s.parserInit).fsm = s.fsm := rfl
@[simp] theorem parserInit_armed : (s.parserInit).armed = s.armed := rfl
@[simp] theorem parserInit_retryCnt : (s.parserInit).retryCnt = s.retryCnt := rfl
@[simp] theorem parserInit_queue : (s.parserInit).queue = s.queue := rfl
@[simp] theorem parserInit_curEvt : (s.parserInit).curEvt = s.curEvt := rfl
@[simp] theorem parserInit_lastAddr : (s.parserInit).lastAddr = s.lastAddr := rfl
@[simp] theorem parserInit_lastCmd : (s.parserInit).lastCmd = s.lastCmd := rfl
@[simp] theorem parserInit_lastValid : (s.parserInit).lastValid = s.lastValid := rfl
@[simp] theorem parserInit_sr : (s.parserInit).sr = 0#32 := rfl
@[simp] theorem parserInit_bitCnt : (s.parserInit).bitCnt = 0#6 := rfl
@[simp] theorem parserInit_idx : (s.parserInit).idx = 0#16 := rfl
@[simp] theorem parserInit_cfg : (s.parserInit).cfg = s.cfg := rfl
@[simp] theorem parserInit_out : (s.parserInit).out = s.out := rfl
@[simp] theorem parserInit_comb : (s.parserInit).comb = s.comb := rfl
@[simp] theorem parserInit_stim : (s.parserInit).stim = s.stim := rfl
@[simp] theorem parserInit_draws : (s.parserInit).draws = s.draws := rfl

/-! ### taken -/

@[simp] theorem taken_fsm (e : Event) (q : List Event) : (s.taken e q).fsm = .decode := rfl
@[simp] theorem taken_armed (e : Event) (q : List Event) : (s.taken e q).armed = s.armed := rfl
@[simp] theorem taken_retryCnt (e : Event) (q : List Event) : (s.taken e q).retryCnt = s.retryCnt := rfl
@[simp] theorem taken_queue (e : Event) (q : List Event) : (s.taken e q).queue = q := rfl
@[simp] theorem taken_curEvt (e : Event) (q : List Event) : (s.taken e q).curEvt = some e := rfl
@[simp] theorem taken_lastAddr (e : Event) (q : List Event) : (s.taken e q).lastAddr = s.lastAddr := rfl
@[simp] theorem taken_lastCmd (e : Event) (q : List Event) : (s.taken e q).lastCmd = s.lastCmd := rfl
@[simp] theorem taken_lastValid (e : Event) (q : List Event) : (s.taken e q).lastValid = s.lastValid := rfl
@[simp] theorem taken_sr (e : Event) (q : List Event) : (s.taken e q).sr = s.sr := rfl
@[simp] theorem taken_bitCnt (e : Event) (q : List Event) : (s.taken e q).bitCnt = s.bitCnt := rfl
@[simp] theorem taken_idx (e : Event) (q : List Event) : (s.taken e q).idx = s.idx := rfl
@[simp] theorem taken_cfg (e : Event) (q : List Event) : (s.taken e q).cfg = s.cfg := rfl
@[simp] theorem taken_out (e : Event) (q : List Event) : (s.taken e q).out = s.out := rfl
@[simp] theorem taken_comb (e : Event) (q : List Event) : (s.taken e q).comb = s.comb := rfl
@[simp] theorem taken_stim (e : Event) (q : List Event) : (s.taken e q).stim = s.stim := rfl
@[simp] theorem taken_draws (e : Event) (q : List Event) : (s.taken e q).draws = s.draws := rfl

/-! ### shifted -/

@[simp] theorem shifted_fsm (r : BitVec 32) (n : BitVec 6) (x : BitVec 16) : (s.shifted r n x).fsm = s.fsm := rfl
@[simp] theorem shifted_armed (r : BitVec 32) (n : BitVec 6) (x : BitVec 16) : (s.shifted r n x).armed = s.armed := rfl
@[simp] theorem shifted_retryCnt (r : BitVec 32) (n : BitVec 6) (x : BitVec 16) : (s.shifted r n x).retryCnt = s.retryCnt := rfl
@[simp] theorem shifted_queue (r : BitVec 32) (n : BitVec 6) (x : BitVec 16) : (s.shifted r n x).queue = s.queue := rfl
@[simp] theorem shifted_curEvt (r : BitVec 32) (n : BitVec 6) (x : BitVec 16) : (s.shifted r n x).curEvt = s.curEvt := rfl
@[simp] theorem shifted_lastAddr (r : BitVec 32) (n : BitVec 6) (x : BitVec 16) : (s.shifted r n x).lastAddr = s.lastAddr := rfl
@[simp] theorem shifted_lastCmd (r : BitVec 32) (n : BitVec 6) (x : BitVec 16) : (s.shifted r n x).lastCmd = s.lastCmd := rfl
@[simp] theorem shifted_lastValid (r : BitVec 32) (n : BitVec 6) (x : BitVec 16) : (s.shifted r n x).lastValid = s.lastValid := rfl
@[simp] theorem shifted_sr (r : BitVec 32) (n : BitVec 6) (x : BitVec 16) : (s.shifted r n x).sr = r := rfl
@[simp] theorem shifted_bitCnt (r : BitVec 32) (n : BitVec 6) (x : BitVec 16) : (s.shifted r n x).bitCnt = n := rfl
@[simp] theorem shifted_idx (r : BitVec 32) (n : BitVec 6) (x : BitVec 16) : (s.shifted r n x).idx = x := rfl
@[simp] theorem shifted_cfg (r : BitVec 32) (n : BitVec 6) (x : BitVec 16) : (s.shifted r n x).cfg = s.cfg := rfl
@[simp] theorem shifted_out (r : BitVec 32) (n : BitVec 6) (x : BitVec 16) : (s.shifted r n x).out = s.out := rfl
@[simp] theorem shifted_comb (r : BitVec 32) (n : BitVec 6) (x : BitVec 16) : (s.shifted r n x).comb = s.comb := rfl
@[simp] theorem shifted_stim (r : BitVec 32) (n : BitVec 6) (x : BitVec 16) : (s.shifted r n x).stim = s.stim := rfl
@[simp] theorem shifted_draws (r : BitVec 32) (n : BitVec 6) (x : BitVec 16) : (s.shifted r n x).draws = s.draws := rfl

/-! ### emitted -/

@[simp] theorem emitted_fsm (d : Dispatched) : (s.emitted d).fsm = .arm := rfl
@[simp] theorem emitted_armed (d : Dispatched) : (s.emitted d).armed = s.armed := rfl
@[simp] theorem emitted_retryCnt (d : Dispatched) : (s.emitted d).retryCnt = s.retryCnt := rfl
@[simp] theorem emitted_queue (d : Dispatched) : (s.emitted d).queue = s.queue := rfl
@[simp] theorem emitted_curEvt (d : Dispatched) : (s.emitted d).curEvt = none := rfl
@[simp] theorem emitted_lastAddr (d : Dispatched) : (s.emitted d).lastAddr = d.lastAddr := rfl
@[simp] theorem emitted_lastCmd (d : Dispatched) : (s.emitted d).lastCmd = d.lastCmd := rfl
@[simp] theorem emitted_lastValid (d : Dispatched) : (s.emitted d).lastValid = d.lastValid := rfl
@[simp] theorem emitted_sr (d : Dispatched) : (s.emitted d).sr = s.sr := rfl
@[simp] theorem emitted_bitCnt (d : Dispatched) : (s.emitted d).bitCnt = s.bitCnt := rfl
@[simp] theorem emitted_idx (d : Dispatched) : (s.emitted d).idx = s.idx := rfl
@[simp] theorem emitted_cfg (d : Dispatched) : (s.emitted d).cfg = s.cfg := rfl
@[simp] theorem emitted_out (d : Dispatched) : (s.emitted d).out = s.out ++ [d.word] := rfl
@[simp] theorem emitted_comb (d : Dispatched) : (s.emitted d).comb = s.comb := rfl
@[simp] theorem emitted_stim (d : Dispatched) : (s.emitted d).stim = s.stim := rfl
@[simp] theorem emitted_draws (d : Dispatched) : (s.emitted d).draws = s.draws := rfl

/-! ### parserFree -/

@[simp] theorem parserFree_fsm : (s.parserFree).fsm = s.fsm := rfl
@[simp] theorem parserFree_armed : (s.parserFree).armed = s.armed := rfl
@[simp] theorem parserFree_retryCnt : (s.parserFree).retryCnt = s.retryCnt := rfl
@[simp] theorem parserFree_queue : (s.parserFree).queue = s.queue := rfl
@[simp] theorem parserFree_curEvt : (s.parserFree).curEvt = s.curEvt := rfl
@[simp] theorem parserFree_lastAddr : (s.parserFree).lastAddr = s.lastAddr := rfl
@[simp] theorem parserFree_lastCmd : (s.parserFree).lastCmd = s.lastCmd := rfl
@[simp] theorem parserFree_lastValid : (s.parserFree).lastValid = s.lastValid := rfl
@[simp] theorem parserFree_sr : (s.parserFree).sr = Config.freeSr s.draws := rfl
@[simp] theorem parserFree_bitCnt : (s.parserFree).bitCnt = BitVec.ofNat 6 (Config.freeBitCnt s.draws).val := rfl
@[simp] theorem parserFree_idx : (s.parserFree).idx = BitVec.ofNat 16 (Config.freeIdx s.draws).val := rfl
@[simp] theorem parserFree_cfg : (s.parserFree).cfg = s.cfg := rfl
@[simp] theorem parserFree_out : (s.parserFree).out = s.out := rfl
@[simp] theorem parserFree_comb : (s.parserFree).comb = s.comb := rfl
@[simp] theorem parserFree_stim : (s.parserFree).stim = s.stim := rfl
@[simp] theorem parserFree_draws : (s.parserFree).draws = s.draws + 1 := rfl

end

/-! ### afterParse -/

@[simp] theorem afterParse_fsm (s : State) (e : Event) : (s.afterParse e).fsm = s.fsm := by
  unfold State.afterParse; split <;> rfl
@[simp] theorem afterParse_armed (s : State) (e : Event) : (s.afterParse e).armed = s.armed := by
  unfold State.afterParse; split <;> rfl
@[simp] theorem afterParse_retryCnt (s : State) (e : Event) : (s.afterParse e).retryCnt = s.retryCnt := by
  unfold State.afterParse; split <;> rfl
@[simp] theorem afterParse_queue (s : State) (e : Event) : (s.afterParse e).queue = s.queue := by
  unfold State.afterParse; split <;> rfl
@[simp] theorem afterParse_curEvt (s : State) (e : Event) : (s.afterParse e).curEvt = s.curEvt := by
  unfold State.afterParse; split <;> rfl
@[simp] theorem afterParse_lastAddr (s : State) (e : Event) : (s.afterParse e).lastAddr = s.lastAddr := by
  unfold State.afterParse; split <;> rfl
@[simp] theorem afterParse_lastCmd (s : State) (e : Event) : (s.afterParse e).lastCmd = s.lastCmd := by
  unfold State.afterParse; split <;> rfl
@[simp] theorem afterParse_lastValid (s : State) (e : Event) : (s.afterParse e).lastValid = s.lastValid := by
  unfold State.afterParse; split <;> rfl
@[simp] theorem afterParse_cfg (s : State) (e : Event) : (s.afterParse e).cfg = s.cfg := by
  unfold State.afterParse; split <;> rfl
@[simp] theorem afterParse_out (s : State) (e : Event) : (s.afterParse e).out = s.out := by
  unfold State.afterParse; split <;> rfl
@[simp] theorem afterParse_comb (s : State) (e : Event) : (s.afterParse e).comb = s.comb := by
  unfold State.afterParse; split <;> rfl
@[simp] theorem afterParse_stim (s : State) (e : Event) : (s.afterParse e).stim = s.stim := by
  unfold State.afterParse; split <;> rfl

theorem afterParse_of_ne {s : State} {e : Event} (h : e.count ≠ normalLen) : s.afterParse e = s := by
  simp [State.afterParse, h]

theorem afterParse_of_eq {s : State} {e : Event} (h : e.count = normalLen) :
    s.afterParse e = s.parserFree := by
  simp [State.afterParse, h]

end Sys2Proof.Machine
end

