-- ==== Sys2Proof/Laws/Operands.lean ====
section
/-! SUPPORT. What the operand and classifier functions answer, once for each function. -/

namespace Sys2Proof.Machine

theorem dur0_eq (w : SymW) : dur0 w = w.toNat % 2 ^ 15 := by
  simp [dur0, BitVec.extractLsb'_toNat]

theorem dur1_eq (w : SymW) : dur1 w = w.toNat / 2 ^ 16 % 2 ^ 15 := by
  simp [dur1, BitVec.extractLsb'_toNat, Nat.shiftRight_eq_div_pow]

theorem dur0_lt (w : SymW) : dur0 w < 32768 := by
  rw [dur0_eq]; omega

theorem dur1_lt (w : SymW) : dur1 w < 32768 := by
  rw [dur1_eq]; omega

theorem inRange_iff {cfg : Config} {m n : Nat} :
    inRange cfg m n = true ↔ n < m + cfg.margin ∧ m < n + cfg.margin := by
  simp [inRange]

theorem pairMatch_iff {cfg : Config} {w : SymW} {sel : RefSel} :
    pairMatch cfg w sel = true ↔
      inRange cfg (dur0 w) (refH cfg sel) = true ∧ inRange cfg (dur1 w) (refL cfg sel) = true := by
  simp [pairMatch]

theorem classifyBit_eq_one {cfg : Config} {w : SymW} :
    classifyBit cfg w = .one ↔ pairMatch cfg w .one = true := by
  unfold classifyBit
  split
  · simp [*]
  · split <;> simp_all

theorem classifyBit_eq_invalid {cfg : Config} {w : SymW} :
    classifyBit cfg w = .invalid ↔ pairMatch cfg w .one = false ∧ pairMatch cfg w .zero = false := by
  unfold classifyBit
  split
  · simp [*]
  · split <;> simp_all

theorem lookup_fst (cfg : Config) (key : BitVec 8) :
    (lookup cfg key).1 = (tableFind key cfg.cmdTable).isSome := by
  simp [lookup, tableEntry]

theorem lookup_snd (cfg : Config) (key : BitVec 8) :
    (lookup cfg key).2 = (tableFind key cfg.cmdTable).getD 0#8 := by
  simp [lookup, tableEntry]

/-- R79: an absent key has label zero. -/
theorem lookup_label_of_miss {cfg : Config} {key : BitVec 8} (h : (lookup cfg key).1 = false) :
    (lookup cfg key).2 = 0#8 := by
  rw [lookup_fst] at h
  rw [lookup_snd, Option.isSome_eq_false_iff.1 h |> Option.isNone_iff_eq_none.1]
  rfl

theorem fsmCode_injective {a b : Fsm} (h : fsmCode a = fsmCode b) : a = b := by
  revert h; cases a <;> cases b <;> decide

@[simp] theorem fsmOfCode_fsmCode (f : Fsm) : fsmOfCode (fsmCode f) = .ok f := by
  cases f <;> rfl

end Sys2Proof.Machine
end

