-- ==== Sys2Proof/Laws/Ops.lean ====
section
/-! SUPPORT. One lemma for each shared operation, saying once what it can do: the queue keeps the
storage well formed, symbol reads of a well-formed event succeed, PARSE and DISPATCH answer, and the
words they build are legal. -/

namespace Sys2Proof.Machine

/-! ## Configuration and events -/

theorem configOk_iff {cfg : Config} :
    configOk cfg = true ↔ 1 ≤ cfg.margin ∧ windowsDisjoint cfg = true ∧ 1 ≤ cfg.durW ∧ cfg.durW ≤ 15 ∧
      2 ≤ cfg.qdepth ∧ 34 ≤ cfg.bufDepth ∧ cfg.bufDepth ≤ 65535 ∧ 0 < cfg.rxTimeoutMs ∧
      keysRising cfg.cmdTable = true := by
  simp [configOk, and_assoc]

theorem windowsDisjoint_iff {cfg : Config} :
    windowsDisjoint cfg = true ↔
      2 * cfg.margin - 1 ≤ absDiff cfg.tZeroH cfg.tOneH ∨
        2 * cfg.margin - 1 ≤ absDiff cfg.tZeroL cfg.tOneL := by
  simp [windowsDisjoint]

theorem eventOk_iff {cfg : Config} {e : Event} :
    eventOk cfg e = true ↔ e.count ≤ cfg.bufDepth ∧ e.count = e.sym.length := by
  simp [eventOk]

theorem symRead_of_lt {e : Event} {i : Nat} (hi : i < e.count) (hl : e.count = e.sym.length) :
    ∃ w, symRead e i = some w := by
  simp [symRead, hi, List.getElem?_eq_getElem (hl ▸ hi)]

theorem symRead_lt {e : Event} {i : Nat} {w : SymW} (h : symRead e i = some w) : i < e.count := by
  unfold symRead at h
  split at h
  · assumption
  · cases h

/-! ## The queue (R55) -/

theorem enqueue_length_le {cfg : Config} {q : List Event} {e : Event} (h : q.length ≤ cfg.qdepth) :
    (enqueue cfg q e).length ≤ cfg.qdepth := by
  unfold enqueue
  split
  · simp; omega
  · exact h

theorem mem_enqueue {cfg : Config} {q : List Event} {e x : Event} (h : x ∈ enqueue cfg q e) :
    x ∈ q ∨ x = e := by
  unfold enqueue at h
  split at h <;> simp_all

theorem dequeue_eq_some {q rest : List Event} {e : Event} :
    dequeue q = some (e, rest) ↔ q = e :: rest := by
  cases q <;> simp [dequeue]

theorem dequeue_eq_none {q : List Event} : dequeue q = none ↔ q = [] := by
  cases q <;> simp [dequeue]

/-! ## Classified symbols (R132) and bit assembly (R134, R135) -/

theorem classifyFrom_length {cfg : Config} {e : Event} {n : Nat} :
    ∀ {i : Nat} {cs : List BitClass}, classifyFrom cfg e i n = some cs → cs.length = n := by
  induction n with
  | zero => intro i cs h; simp [classifyFrom] at h; simp [← h]
  | succ n ih =>
    intro i cs h
    simp only [classifyFrom] at h
    split at h
    · rename_i w cs' _ h2
      cases h
      simp [ih h2]
    · cases h

theorem classifyFrom_of_le {cfg : Config} {e : Event} (hl : e.count = e.sym.length) {n : Nat} :
    ∀ {i : Nat}, i + n ≤ e.count → ∃ cs, classifyFrom cfg e i n = some cs := by
  induction n with
  | zero => intro i _; exact ⟨[], rfl⟩
  | succ n ih =>
    intro i h
    obtain ⟨w, hw⟩ := symRead_of_lt (i := i) (by omega) hl
    obtain ⟨cs, hcs⟩ := ih (i := i + 1) (by omega)
    exact ⟨classifyBit cfg w :: cs, by simp [classifyFrom, hw, hcs]⟩

/-- The k-th entry is the class of symbol `i + k`. -/
theorem classifyFrom_getElem {cfg : Config} {e : Event} {n : Nat} :
    ∀ {i : Nat} {cs : List BitClass}, classifyFrom cfg e i n = some cs → ∀ k, k < n →
      cs[k]? = (symRead e (i + k)).map (classifyBit cfg) := by
  induction n with
  | zero => intro i cs _ k hk; omega
  | succ n ih =>
    intro i cs h k hk
    simp only [classifyFrom] at h
    split at h
    · rename_i w cs' h1 h2
      cases h
      cases k with
      | zero => simp [h1]
      | succ k =>
        rw [List.getElem?_cons_succ, ih h2 k (by omega)]
        congr 2; omega
    · cases h

/-- One more symbol at the end. -/
theorem classifyFrom_snoc {cfg : Config} {e : Event} {n : Nat} :
    ∀ {i : Nat} {cs : List BitClass} {w : SymW}, classifyFrom cfg e i n = some cs →
      symRead e (i + n) = some w →
      classifyFrom cfg e i (n + 1) = some (cs ++ [classifyBit cfg w]) := by
  induction n with
  | zero =>
    intro i cs w h hw
    simp [classifyFrom] at h
    simp only [Nat.add_zero] at hw
    simp [classifyFrom, hw, ← h]
  | succ n ih =>
    intro i cs w h hw
    simp only [classifyFrom] at h
    split at h
    · rename_i v cs' h1 h2
      cases h
      have := ih h2 (w := w) (by rw [← hw]; congr 1; omega)
      rw [classifyFrom, h1, this]
      rfl
    · cases h

theorem assemble_lt (cs : List BitClass) : assemble cs < 2 ^ cs.length := by
  induction cs with
  | nil => simp [assemble]
  | cons c cs ih =>
    simp only [assemble, List.length_cons, Nat.pow_succ]
    split <;> omega

theorem assemble_append (cs ds : List BitClass) :
    assemble (cs ++ ds) = assemble cs + 2 ^ cs.length * assemble ds := by
  induction cs with
  | nil => simp [assemble]
  | cons c cs ih =>
    simp only [List.cons_append, assemble, ih, List.length_cons, Nat.pow_succ]
    ring

theorem assemble_testBit (cs : List BitClass) (i : Nat) :
    (assemble cs).testBit i = decide (cs[i]? = some .one) := by
  induction cs generalizing i with
  | nil => simp [assemble]
  | cons c cs ih =>
    cases i with
    | zero =>
      by_cases hc : c = .one
      · simp [assemble, hc, Nat.testBit_zero]
      · simp [assemble, hc, Nat.testBit_zero]
    | succ i =>
      rw [List.getElem?_cons_succ, ← ih, Nat.testBit_succ, assemble]
      congr 1
      split <;> omega

/-! ## PARSE and DISPATCH answer for every well-formed event -/

theorem parse_of_ok {cfg : Config} {e : Event} (hl : e.count = e.sym.length)
    (hc : e.count = normalLen) : ∃ r, parse cfg e = some r := by
  have h34 : e.count = 34 := hc
  obtain ⟨w, hw⟩ := symRead_of_lt (e := e) (i := 0) (by omega) hl
  obtain ⟨cs, hcs⟩ := classifyFrom_of_le (cfg := cfg) hl (n := 32) (i := 1) (by omega)
  unfold parse
  rw [hw]
  by_cases h : checkLeading cfg w = true
  · exact ⟨parseBits cs, by simp [h, hcs]⟩
  · exact ⟨.badLeading, by simp [h]⟩

theorem repeatPath_of_ok {cfg : Config} {e : Event} (hl : e.count = e.sym.length)
    (hc : e.count = repeatLen) (la lc : BitVec 16) (lv : Bool) :
    ∃ d, repeatPath cfg e la lc lv = some d := by
  have h2 : e.count = 2 := hc
  obtain ⟨w, hw⟩ := symRead_of_lt (e := e) (i := 0) (by omega) hl
  simp [repeatPath, hw]

/-- DISPATCH is total on well-formed events (R160). -/
theorem dispatch_of_ok {cfg : Config} {e : Event} (h : eventOk cfg e = true) (la lc : BitVec 16)
    (lv : Bool) : ∃ d, dispatch cfg e la lc lv = some d := by
  obtain ⟨-, hl⟩ := eventOk_iff.1 h
  unfold dispatch
  split
  · rename_i hc
    obtain ⟨r, hr⟩ := parse_of_ok (cfg := cfg) hl hc
    exact ⟨_, by rw [hr]; rfl⟩
  · split
    · rename_i hc
      exact repeatPath_of_ok hl hc la lc lv
    · exact ⟨_, rfl⟩

/-! ## Every dispatched word is legal (R75) and the last pair moves as R162 says -/

theorem plainOutcome_legal {code : BitVec 4} (hcode : 1 ≤ code.toNat ∧ code.toNat ≤ 7) (n : Nat)
    (la lc : BitVec 16) (lv : Bool) :
    ∃ i, decodeOutcome (plainOutcome code n la lc lv).word = .ok i := by
  obtain ⟨h1, h2⟩ := hcode
  rw [plainOutcome, decodeOutcome_mkOutcome (by simp [OutFields.legal])]
  have : code.toNat = 1 ∨ code.toNat = 2 ∨ code.toNat = 3 ∨ code.toNat = 4 ∨ code.toNat = 5 ∨
      code.toNat = 6 ∨ code.toNat = 7 := by omega
  rcases this with h | h | h | h | h | h | h <;> rw [h] <;> exact ⟨_, rfl⟩

theorem normalOutcome_legal (cfg : Config) (r : ParseResult) (la lc : BitVec 16) (lv : Bool) :
    ∃ i, decodeOutcome (normalOutcome cfg r la lc lv).word = .ok i := by
  cases r with
  | ok a c =>
    simp only [normalOutcome]
    by_cases h : (lookup cfg (cmdKey c)).1 = true
    · rw [if_pos h, decodeOutcome_mkOutcome (by simp [OutFields.legal])]
      exact ⟨_, rfl⟩
    · rw [if_neg h, decodeOutcome_mkOutcome (by simp [OutFields.legal])]
      exact ⟨_, rfl⟩
  | badLeading => exact plainOutcome_legal (by decide) ..
  | badBit => exact plainOutcome_legal (by decide) ..

theorem repeatOutcome_legal (cfg : Config) (b : Bool) (la lc : BitVec 16) (lv : Bool) :
    ∃ i, decodeOutcome (repeatOutcome cfg b la lc lv).word = .ok i := by
  unfold repeatOutcome
  split
  · split
    · dsimp only
      rw [decodeOutcome_mkOutcome (by
        by_cases h : (lookup cfg (cmdKey lc)).1 = true <;> simp [OutFields.legal, h])]
      exact ⟨_, rfl⟩
    · exact plainOutcome_legal (by decide) ..
  · exact plainOutcome_legal (by decide) ..

theorem dispatch_legal {cfg : Config} {e : Event} {la lc : BitVec 16} {lv : Bool} {d : Dispatched}
    (h : dispatch cfg e la lc lv = some d) : ∃ i, decodeOutcome d.word = .ok i := by
  unfold dispatch at h
  split at h
  · obtain ⟨r, -, rfl⟩ := Option.map_eq_some_iff.1 h
    exact normalOutcome_legal ..
  · split at h
    · obtain ⟨w, -, rfl⟩ := Option.map_eq_some_iff.1 h
      exact repeatOutcome_legal ..
    · cases h
      exact plainOutcome_legal (by decide) ..

/-- The last pair after a normal frame: the decoded one, or the one of before (R162, R171). -/
theorem normalOutcome_last (cfg : Config) (r : ParseResult) (la lc : BitVec 16) (lv : Bool) :
    (∃ a c, r = .ok a c ∧ (normalOutcome cfg r la lc lv).lastAddr = a ∧
        (normalOutcome cfg r la lc lv).lastCmd = c ∧
        (normalOutcome cfg r la lc lv).lastValid = true) ∨
      ((normalOutcome cfg r la lc lv).lastAddr = la ∧ (normalOutcome cfg r la lc lv).lastCmd = lc ∧
        (normalOutcome cfg r la lc lv).lastValid = lv) := by
  cases r with
  | ok a c => exact .inl ⟨a, c, rfl, rfl, rfl, rfl⟩
  | badLeading => exact .inr ⟨rfl, rfl, rfl⟩
  | badBit => exact .inr ⟨rfl, rfl, rfl⟩

theorem repeatOutcome_last (cfg : Config) (b : Bool) (la lc : BitVec 16) (lv : Bool) :
    (repeatOutcome cfg b la lc lv).lastAddr = la ∧ (repeatOutcome cfg b la lc lv).lastCmd = lc ∧
      (repeatOutcome cfg b la lc lv).lastValid = lv := by
  unfold repeatOutcome
  split
  · split <;> exact ⟨rfl, rfl, rfl⟩
  · exact ⟨rfl, rfl, rfl⟩

/-- The last pair after DISPATCH changes only on a count-34 event whose PARSE is Ok (R171). -/
theorem dispatch_last {cfg : Config} {e : Event} {la lc : BitVec 16} {lv : Bool} {d : Dispatched}
    (h : dispatch cfg e la lc lv = some d) :
    (∃ a c, e.count = normalLen ∧ parse cfg e = some (.ok a c) ∧ d.lastAddr = a ∧ d.lastCmd = c ∧
        d.lastValid = true) ∨
      (d.lastAddr = la ∧ d.lastCmd = lc ∧ d.lastValid = lv) := by
  unfold dispatch at h
  split at h
  · rename_i hc
    obtain ⟨r, hr, rfl⟩ := Option.map_eq_some_iff.1 h
    rcases normalOutcome_last cfg r la lc lv with ⟨a, c, rfl, h1⟩ | h1
    · exact .inl ⟨a, c, hc, hr, h1⟩
    · exact .inr h1
  · split at h
    · obtain ⟨w, -, rfl⟩ := Option.map_eq_some_iff.1 h
      exact .inr (repeatOutcome_last ..)
    · cases h
      exact .inr ⟨rfl, rfl, rfl⟩

/-! ## The shared meanings: what a next state is -/

theorem withDispatched_next {s t : State} {k : Event → Dispatched → Result}
    (h : withDispatched s k = .next t) :
    ∃ e d, s.fsm = .decode ∧ s.curEvt = some e ∧ s.dispatchOf e = some d ∧ k e d = .next t := by
  unfold withDispatched at h
  split at h
  · split at h
    · cases h
    · split at h
      · cases h
      · exact ⟨_, _, by assumption, by assumption, by assumption, h⟩
  · cases h

theorem withDispatched_eq {s : State} {e : Event} {d : Dispatched} (k : Event → Dispatched → Result)
    (h1 : s.fsm = .decode) (h2 : s.curEvt = some e) (h3 : s.dispatchOf e = some d) :
    withDispatched s k = k e d := by
  simp [withDispatched, h1, h2, h3]

theorem decodeStep_next {s t : State} (h : decodeStep s = .next t) :
    ∃ e d, s.fsm = .decode ∧ s.curEvt = some e ∧ s.dispatchOf e = some d ∧
      t = (s.emitted d).afterParse e := by
  obtain ⟨e, d, h1, h2, h3, h4⟩ := withDispatched_next h
  cases h4
  exact ⟨e, d, h1, h2, h3, rfl⟩

theorem emitStep_next {s t : State} {w : OutW} (h : emitStep w s = .next t) :
    ∃ e d, s.fsm = .decode ∧ s.curEvt = some e ∧ s.dispatchOf e = some d ∧ d.word = w ∧
      t = (s.emitted d).afterParse e := by
  obtain ⟨e, d, h1, h2, h3, h4⟩ := withDispatched_next h
  split at h4
  · cases h4
    exact ⟨e, d, h1, h2, h3, by assumption, rfl⟩
  · cases h4

theorem withEvent_next {s t : State} {e : Event} {p : Nat → Bool} {k : Option Comb}
    (h : withEvent s e p k = .next t) :
    eventOk s.cfg e = true ∧ p e.count = true ∧ ∃ c, k = some c ∧ t = s.drive c := by
  unfold withEvent at h
  split at h
  · split at h
    · split at h
      · cases h
        exact ⟨by assumption, by assumption, _, rfl, rfl⟩
      · cases h
    · cases h
  · cases h

end Sys2Proof.Machine
end

