-- ==== Sys2Proof/Laws/Exec.lean ====
section
/-! SUPPORT. Everything one operation can do when it answers a next state: one lemma, `exec_next`, from
which invariants follow without unfolding the meanings again; and what a step is. -/

namespace Sys2Proof.Machine

/-- What a micro-step on symbol `w` leaves (R139). -/
inductive PstepEffect (s : State) (w : SymW) : State → Prop
  | leading : s.idx = 0#16 → checkLeading s.cfg w = true →
      PstepEffect s w (s.shifted s.sr s.bitCnt 1#16)
  | badLeading : s.idx = 0#16 → checkLeading s.cfg w = false →
      PstepEffect s w (s.emitted (normalOutcome s.cfg .badLeading s.lastAddr s.lastCmd s.lastValid))
  | badBit : s.idx ≠ 0#16 → classifyBit s.cfg w = .invalid →
      PstepEffect s w (s.emitted (normalOutcome s.cfg .badBit s.lastAddr s.lastCmd s.lastValid))
  | bit : s.idx ≠ 0#16 → classifyBit s.cfg w ≠ .invalid → s.bitCnt.toNat + 1 ≠ dataBits →
      PstepEffect s w (s.shifted (shiftIn (classifyBit s.cfg w == .one) s.sr) (s.bitCnt + 1#6)
        (s.idx + 1#16))
  | last : s.idx ≠ 0#16 → classifyBit s.cfg w ≠ .invalid → s.bitCnt.toNat + 1 = dataBits →
      PstepEffect s w
        ((s.shifted (shiftIn (classifyBit s.cfg w == .one) s.sr) (s.bitCnt + 1#6)
          (s.idx + 1#16)).emitted
          (normalOutcome s.cfg
            (.ok ((shiftIn (classifyBit s.cfg w == .one) s.sr).extractLsb' 0 16)
              ((shiftIn (classifyBit s.cfg w == .one) s.sr).extractLsb' 16 16))
            s.lastAddr s.lastCmd s.lastValid))

theorem pstepData_eq_of_valid {s : State} {w : SymW} (h : classifyBit s.cfg w ≠ .invalid) :
    pstepData s w =
      if s.bitCnt.toNat + 1 = dataBits then
        finishParse (s.shifted (shiftIn (classifyBit s.cfg w == .one) s.sr) (s.bitCnt + 1#6)
          (s.idx + 1#16))
          (.ok ((shiftIn (classifyBit s.cfg w == .one) s.sr).extractLsb' 0 16)
            ((shiftIn (classifyBit s.cfg w == .one) s.sr).extractLsb' 16 16))
      else .next (s.shifted (shiftIn (classifyBit s.cfg w == .one) s.sr) (s.bitCnt + 1#6)
          (s.idx + 1#16)) := by
  unfold pstepData
  cases hc : classifyBit s.cfg w <;> simp_all

/-- A micro-step on a symbol always goes on, in one of these ways. -/
theorem pstepSymbol_effect (s : State) (w : SymW) :
    ∃ t, pstepSymbol s w = .next t ∧ PstepEffect s w t := by
  unfold pstepSymbol
  split
  · split
    · exact ⟨_, rfl, .leading (by assumption) (by assumption)⟩
    · exact ⟨_, rfl, .badLeading (by assumption) (by simp_all)⟩
  · by_cases hc : classifyBit s.cfg w = .invalid
    · exact ⟨_, by rw [pstepData, hc]; rfl, .badBit (by assumption) hc⟩
    · rw [pstepData_eq_of_valid hc]
      split
      · exact ⟨_, rfl, .last (by assumption) hc (by assumption)⟩
      · exact ⟨_, rfl, .bit (by assumption) hc (by assumption)⟩

theorem execPstep_next {s t : State} (h : execPstep s = .next t) :
    ∃ e w, s.fsm = .decode ∧ s.curEvt = some e ∧ e.count = normalLen ∧ parseRunning s = true ∧
      symRead e s.idx.toNat = some w ∧ PstepEffect s w t := by
  unfold execPstep at h
  split at h
  · split at h
    · cases h
    · split at h
      · rename_i h1 _ e h2 h3
        split at h
        · cases h
        · rename_i w hw
          obtain ⟨t', ht', he⟩ := pstepSymbol_effect s w
          rw [ht'] at h
          cases h
          exact ⟨e, w, h1, h2, h3.1, h3.2, hw, he⟩
      · cases h
  · cases h

/-- The operations that decode CUR_EVT in one step: DECODE and the outcome operations. -/
def decodesEvent : Instr → Bool
  | .decode | .outKey _ | .outUnmappedKey _ | .outBadLeading _ | .outBadBit _ | .outRepeat _
  | .outNotRepeat _ | .outUnknownFrame _ => true
  | .symbol _ | .inRange _ _ | .pairMatchLead _ | .pairMatchZero _ | .pairMatchOne _
  | .pairMatchRep _ | .classifyBit _ | .checkLeading _ | .checkRepeat _ | .dispatch _ | .parse _
  | .repeatp _ | .unknownFramePath _ | .lookup _ | .post _ | .armOk | .armFail | .dequeue | .timeout
  | .pstep | .reset => false

/-- What a next state of an operation is. -/
inductive Effect (s : State) : Instr → State → Prop
  | drive {i : Instr} (c : Comb) : combinational i = true → Effect s i (s.drive c)
  | post {e : Event} : postAllowed s = true → eventOk s.cfg e = true →
      Effect s (.post e) (s.posted e)
  | armOk : s.fsm = .arm → Effect s .armOk s.armDone
  | retry : s.fsm = .arm → s.retryCnt < s.cfg.rearmRetries → Effect s .armFail s.retryArm
  | toFault : s.fsm = .arm → ¬ s.retryCnt < s.cfg.rearmRetries → Effect s .armFail s.enterFault
  | takeFrame {e : Event} {q : List Event} : s.fsm = .wait → s.queue = e :: q →
      e.count = normalLen → Effect s .dequeue (s.taken e q).parserInit
  | take {e : Event} {q : List Event} : s.fsm = .wait → s.queue = e :: q →
      e.count ≠ normalLen → Effect s .dequeue (s.taken e q)
  | timeout : s.fsm = .wait → s.queue = [] → Effect s .timeout s
  | decode {i : Instr} {e : Event} {d : Dispatched} : decodesEvent i = true → s.fsm = .decode →
      s.curEvt = some e → s.dispatchOf e = some d → Effect s i ((s.emitted d).afterParse e)
  | pstep {e : Event} {w : SymW} {t : State} : s.fsm = .decode → s.curEvt = some e →
      e.count = normalLen → parseRunning s = true → symRead e s.idx.toNat = some w →
      PstepEffect s w t → Effect s .pstep t
  | reset : Effect s .reset s.resetRegs

theorem effect_of_emitStep {s t : State} {w : OutW} {i : Instr} (hi : decodesEvent i = true)
    (h : emitStep w s = .next t) : Effect s i t := by
  obtain ⟨e, d, h1, h2, h3, -, rfl⟩ := emitStep_next h
  exact .decode hi h1 h2 h3

theorem effect_of_withEvent {s t : State} {i : Instr} {e : Event} {p : Nat → Bool}
    {k : Option Comb} (hi : combinational i = true) (h : withEvent s e p k = .next t) :
    Effect s i t := by
  obtain ⟨-, -, c, -, rfl⟩ := withEvent_next h
  exact .drive c hi

/-- Say once what an operation can do: every next state it answers is one of these. -/
theorem exec_next {i : Instr} {s t : State} (h : exec i s = .next t) : Effect s i t := by
  cases i with
  | symbol w => cases h; exact .drive _ rfl
  | inRange m n => cases h; exact .drive _ rfl
  | pairMatchLead w => cases h; exact .drive _ rfl
  | pairMatchZero w => cases h; exact .drive _ rfl
  | pairMatchOne w => cases h; exact .drive _ rfl
  | pairMatchRep w => cases h; exact .drive _ rfl
  | classifyBit w => cases h; exact .drive _ rfl
  | checkLeading w => cases h; exact .drive _ rfl
  | checkRepeat w => cases h; exact .drive _ rfl
  | lookup key => cases h; exact .drive _ rfl
  | dispatch e =>
    simp only [exec, execDispatch] at h
    exact effect_of_withEvent rfl h
  | parse e =>
    simp only [exec, execParse] at h
    exact effect_of_withEvent rfl h
  | repeatp e =>
    simp only [exec, execRepeatp] at h
    exact effect_of_withEvent rfl h
  | unknownFramePath e =>
    simp only [exec, execUnknownFramePath] at h
    exact effect_of_withEvent rfl h
  | post e =>
    simp only [exec, execPost] at h
    split at h
    · split at h
      · cases h; exact .post (by assumption) (by assumption)
      · cases h
    · cases h
  | armOk =>
    simp only [exec, execArmOk] at h
    split at h
    · cases h; exact .armOk (by assumption)
    · cases h
  | armFail =>
    simp only [exec, execArmFail] at h
    split at h
    · split at h
      · cases h; exact .retry (by assumption) (by assumption)
      · cases h; exact .toFault (by assumption) (by assumption)
    · cases h
  | dequeue =>
    simp only [exec, execDequeue] at h
    split at h
    · split at h
      · cases h
      · rename_i hw _ e q hq
        rw [dequeue_eq_some] at hq
        split at h
        · cases h; exact .takeFrame hw hq (by assumption)
        · cases h; exact .take hw hq (by assumption)
    · cases h
  | timeout =>
    simp only [exec, execTimeout] at h
    split at h
    · rename_i ht
      simp only [timerRuns, Bool.and_eq_true, beq_iff_eq, List.isEmpty_iff] at ht
      cases h; exact .timeout ht.1 ht.2
    · cases h
  | decode =>
    obtain ⟨e, d, h1, h2, h3, rfl⟩ := decodeStep_next h
    exact .decode rfl h1 h2 h3
  | pstep =>
    obtain ⟨e, w, h1, h2, h3, h4, h5, h6⟩ := execPstep_next h
    exact .pstep h1 h2 h3 h4 h5 h6
  | reset => cases h; exact .reset
  | outKey f => exact effect_of_emitStep rfl h
  | outUnmappedKey f => exact effect_of_emitStep rfl h
  | outBadLeading f => exact effect_of_emitStep rfl h
  | outBadBit f => exact effect_of_emitStep rfl h
  | outRepeat f => exact effect_of_emitStep rfl h
  | outNotRepeat f => exact effect_of_emitStep rfl h
  | outUnknownFrame f => exact effect_of_emitStep rfl h

/-! ## One step -/

theorem nextXact_cons {s : State} {x : Xact} {rest : List Xact} (h : s.stim = x :: rest) :
    nextXact s = (x, { s with stim := rest }) := by
  simp [nextXact, h]

/-- Taking a transaction changes only the script and the count of free values. -/
theorem nextXact_same (s : State) :
    (nextXact s).2 = { s with stim := (nextXact s).2.stim, draws := (nextXact s).2.draws } := by
  unfold nextXact
  split <;> rfl

theorem step_next {s t : State} (h : step s = .next t) :
    ∃ i, configOk s.cfg = true ∧ decodeXact (nextXact s).1 = .ok i ∧
      exec i (nextXact s).2 = .next t := by
  unfold step at h
  split at h
  · split at h
    · exact ⟨_, by assumption, by assumption, h⟩
    · cases h
  · cases h

end Sys2Proof.Machine
end

