-- ==== Sys2Proof/Laws/Outcome.lean ====
section
/-! SUPPORT. The outcome words as sums over their fields, the table read of a canonical table, what
the decoding steps leave, and runs of several operations. -/

namespace Sys2Proof.Machine

/-! ## Outcome words (R73) -/

theorem wordCount_mkOutcome (code : BitVec 4) (f : OutFields) :
    wordCount (mkOutcome code f) = f.count.toNat := by
  have := mkOutcome_bounds code f
  rw [wordCount, mkOutcome_toNat]
  omega

theorem plainOutcome_toNat (code : BitVec 4) {n : Nat} (hn : n < 65536) (la lc : BitVec 16)
    (lv : Bool) :
    (plainOutcome code n la lc lv).word.toNat = outcomeNat code.toNat 0 0 0 0 0 n := by
  simp [plainOutcome, mkOutcome_toNat, countField, outcomeNat]
  omega

theorem normalOutcome_ok_toNat (cfg : Config) (a c la lc : BitVec 16) (lv : Bool) :
    (normalOutcome cfg (.ok a c) la lc lv).word.toNat =
      if (lookup cfg (cmdKey c)).1 then
        outcomeNat 1 1 1 (lookup cfg (cmdKey c)).2.toNat a.toNat c.toNat 34
      else outcomeNat 2 1 0 0 a.toNat c.toNat 34 := by
  simp only [normalOutcome]
  split <;> simp [mkOutcome_toNat, countField, outcomeNat] <;> omega

theorem repeatOutcome_toNat (cfg : Config) (b : Bool) (la lc : BitVec 16) (lv : Bool) :
    (repeatOutcome cfg b la lc lv).word.toNat =
      if b then
        if lv then
          outcomeNat 5 1 (lookup cfg (cmdKey lc)).1.toNat (lookup cfg (cmdKey lc)).2.toNat la.toNat
            lc.toNat 2
        else outcomeNat 5 0 0 0 0 0 2
      else outcomeNat 6 0 0 0 0 0 2 := by
  unfold repeatOutcome
  split
  · split
    · simp only [mkOutcome_toNat, countField, outcomeNat]
      cases h : (lookup cfg (cmdKey lc)).1
      · simp [lookup_label_of_miss h]; omega
      · simp; omega
    · exact plainOutcome_toNat _ (by decide) ..
  · exact plainOutcome_toNat _ (by decide) ..

theorem normalOutcome_count (cfg : Config) (r : ParseResult) (la lc : BitVec 16) (lv : Bool) :
    wordCount (normalOutcome cfg r la lc lv).word = 34 := by
  cases r with
  | ok a c => simp only [normalOutcome]; split <;> simp [wordCount_mkOutcome, countField]
  | badLeading => simp [normalOutcome, plainOutcome, wordCount_mkOutcome, countField]
  | badBit => simp [normalOutcome, plainOutcome, wordCount_mkOutcome, countField]

/-- COUNT of the dispatched word is the count of the event (R73). -/
theorem dispatch_count {cfg : Config} {e : Event} {la lc : BitVec 16} {lv : Bool} {d : Dispatched}
    (h : dispatch cfg e la lc lv = some d) (hb : e.count < 65536) : wordCount d.word = e.count := by
  unfold dispatch at h
  split at h
  · rename_i hc
    obtain ⟨r, -, rfl⟩ := Option.map_eq_some_iff.1 h
    rw [normalOutcome_count, hc]
  · split at h
    · rename_i hc
      obtain ⟨w, -, rfl⟩ := Option.map_eq_some_iff.1 h
      unfold repeatOutcome
      split
      · split <;> simp [plainOutcome, wordCount_mkOutcome, countField, hc]
      · simp [plainOutcome, wordCount_mkOutcome, countField, hc]
    · cases h
      simp [unknownPath, plainOutcome, wordCount_mkOutcome, countField]
      omega

/-! ## The shift register (R139) -/

theorem shiftIn_toNat (b : Bool) (sr : BitVec 32) :
    (shiftIn b sr).toNat = sr.toNat / 2 + (if b then 2 ^ 31 else 0) := by
  have h := sr.isLt
  have hlt : sr.toNat / 2 < 2 ^ 31 := by omega
  have e : (sr.extractLsb' 1 31).toNat = sr.toNat / 2 := by
    simp [BitVec.extractLsb'_toNat, Nat.shiftRight_eq_div_pow]
    omega
  simp only [shiftIn, BitVec.toNat_append, BitVec.toNat_ofBool, e]
  rw [← Nat.shiftLeft_add_eq_or_of_lt hlt, Nat.shiftLeft_eq]
  cases b
  · simp
  · simp; omega

/-- PSTEP on an unfinished parse is its micro-step. -/
theorem exec_pstep {s : State} {e : Event} {w : SymW} (hd : s.Decoding e) (hc : e.count = normalLen)
    (hr : parseRunning s = true) (hw : symRead e s.idx.toNat = some w) :
    exec .pstep s = pstepSymbol s w := by
  have hc' : e.count = 34 := hc
  simp [exec, execPstep, hd.1, hd.2.1, hc', hr, hw]

/-! ## The table read (R163) -/

theorem tableFind_of_mem {key l : BitVec 8} :
    ∀ {t : List (BitVec 8 × BitVec 8)}, keysRising t = true → (key, l) ∈ t →
      tableFind key t = some l ∧ ∀ p ∈ t.head?, p.1.toNat ≤ key.toNat
  | [], _, h => by simp at h
  | [a], _, h => by
    simp at h
    subst h
    simp [tableFind]
  | a :: b :: rest, hr, h => by
    simp only [keysRising, Bool.and_eq_true, decide_eq_true_eq] at hr
    rw [List.mem_cons] at h
    rcases h with h | h
    · subst h; simp [tableFind]
    · obtain ⟨h1, h2⟩ := tableFind_of_mem hr.2 h
      have h3 := h2 b (by simp)
      have hne : a.1 ≠ key := by intro hh; rw [hh] at hr; omega
      refine ⟨by rw [tableFind, if_neg hne, h1], ?_⟩
      intro p hp
      simp at hp
      subst hp
      omega

theorem tableFind_eq_none {key : BitVec 8} {t : List (BitVec 8 × BitVec 8)}
    (h : ∀ l, (key, l) ∉ t) : tableFind key t = none := by
  induction t with
  | nil => rfl
  | cons a t ih =>
    obtain ⟨k, l⟩ := a
    rw [tableFind, if_neg, ih]
    · intro l' hl'; exact h l' (List.mem_cons_of_mem _ hl')
    · rintro rfl; exact h l (by simp)

/-! ## Symbols -/

/-- Events that agree on the symbols `i` to `i + n - 1` have the same classes there. -/
theorem classifyFrom_congr {cfg : Config} {e e' : Event} {n : Nat} :
    ∀ {i : Nat}, (∀ j, i ≤ j → j < i + n → symRead e j = symRead e' j) →
      classifyFrom cfg e i n = classifyFrom cfg e' i n := by
  induction n with
  | zero => intro i _; rfl
  | succ n ih =>
    intro i h
    simp only [classifyFrom, h i (by omega) (by omega)]
    rw [ih (fun j h1 h2 => h j (by omega) (by omega))]

/-! ## What the decoding steps leave (R197) -/

theorem decoded_emitted (s : State) (e : Event) (d : Dispatched) :
    s.Decoded ((s.emitted d).afterParse e) d.word d.lastAddr d.lastCmd d.lastValid := by
  constructor <;> simp

theorem sameParser_emitted (s : State) {e : Event} (d : Dispatched) (h : e.count ≠ normalLen) :
    s.SameParser ((s.emitted d).afterParse e) := by
  rw [afterParse_of_ne h]
  constructor <;> simp

theorem decodeStep_eq {s : State} {e : Event} {d : Dispatched} (h : s.Decoding e)
    (hd : s.dispatchOf e = some d) :
    decodeStep s = .next ((s.emitted d).afterParse e) := by
  simp [decodeStep, withDispatched_eq _ h.1 h.2.1 hd]

theorem emitStep_eq {s : State} {e : Event} {d : Dispatched} (h : s.Decoding e)
    (hd : s.dispatchOf e = some d) :
    emitStep d.word s = .next ((s.emitted d).afterParse e) := by
  simp [emitStep, withDispatched_eq _ h.1 h.2.1 hd]

/-! ## Runs -/

/-- Dispatching a list of well-formed events in turn answers, with one word for each. -/
theorem dispatchAll_of_ok {cfg : Config} {es : List Event} (h : ∀ e, e ∈ es → eventOk cfg e = true) :
    ∀ la lc lv, ∃ r, dispatchAll cfg es la lc lv = some r ∧ r.1.length = es.length := by
  induction es with
  | nil => intro la lc lv; exact ⟨_, rfl, rfl⟩
  | cons e es ih =>
    intro la lc lv
    obtain ⟨d, hd⟩ := dispatch_of_ok (h e (by simp)) la lc lv
    obtain ⟨r, hr, hl⟩ := ih (fun x hx => h x (by simp [hx])) d.lastAddr d.lastCmd d.lastValid
    exact ⟨(d.word :: r.1, r.2), by simp [dispatchAll, hd, hr], by simp [hl]⟩

/-- The operation of a run at a point has the effect `exec_next` says. -/
theorem Run.effect (r : Run) (n : Nat) : Effect (r.state n) (r.op n) (r.state (n + 1)) :=
  exec_next (r.next n)

theorem execAll_append {a b : List Instr} {s t : State} (h : execAll a s = .next t) :
    execAll (a ++ b) s = execAll b t := by
  induction a generalizing s with
  | nil => cases h; rfl
  | cons i a ih =>
    cases hu : exec i s with
    | next u =>
      simp only [List.cons_append, execAll, hu] at h ⊢
      exact ih h
    | fault r => simp [execAll, hu] at h
    | refused r => simp [execAll, hu] at h

theorem steps_succ {n : Nat} {s t : State} (h : steps n s = .next t) :
    steps (n + 1) s = step t := by
  induction n generalizing s with
  | zero =>
    cases h
    cases hu : step t <;> simp [steps, hu]
  | succ n ih =>
    rw [steps] at h
    cases hu : step s with
    | next u =>
      simp only [hu] at h
      rw [steps]
      simp only [hu]
      exact ih h
    | fault r => simp [hu] at h
    | refused r => simp [hu] at h

end Sys2Proof.Machine
end

