-- ==== Sys2Proof/Laws/PerInstr.lean ====
section
/-! SUPPORT. The family EncodedLength (R82): how many words the transaction of an operation has. -/

namespace Sys2Proof.Laws.EncodedLength

/-- The number of words: fixed, but for events, whose header gives it (R76, R82). -/
def words : Instr → Nat
  | .symbol _ => 1
  | .post e => 1 + e.count
  | .inRange _ _ => 2
  | .pairMatchLead _ => 2
  | .pairMatchZero _ => 2
  | .pairMatchOne _ => 2
  | .pairMatchRep _ => 2
  | .classifyBit _ => 2
  | .checkLeading _ => 2
  | .checkRepeat _ => 2
  | .dispatch e => 1 + e.count
  | .parse e => 1 + e.count
  | .repeatp e => 1 + e.count
  | .unknownFramePath e => 1 + e.count
  | .lookup _ => 1
  | .armOk => 1
  | .armFail => 1
  | .dequeue => 1
  | .timeout => 1
  | .decode => 1
  | .pstep => 1
  | .reset => 1
  | .outKey _ => 1
  | .outUnmappedKey _ => 1
  | .outBadLeading _ => 1
  | .outBadBit _ => 1
  | .outRepeat _ => 1
  | .outNotRepeat _ => 1
  | .outUnknownFrame _ => 1

/-- A well-formed operation's transaction has as many words as its format says (R82). -/
def Statement (i : Instr) : Prop :=
  i.wf = true → (encode i).words.length = words i

theorem encodeEvent_length {e : Event} (h : e.fitsHeader = true) :
    (encodeEvent e).length = 1 + e.count := by
  obtain ⟨-, h2⟩ := fitsHeader_iff.1 h
  simp [encodeEvent, ← h2, Nat.add_comm]

theorem symbol (w : SymW) : Statement (.symbol w) := fun _ => rfl

theorem post (e : Event) : Statement (.post e) := fun h => encodeEvent_length h

theorem inRange (measured nominal : Nat) : Statement (.inRange measured nominal) := fun _ => rfl

theorem pairMatchLead (w : SymW) : Statement (.pairMatchLead w) := fun _ => rfl

theorem pairMatchZero (w : SymW) : Statement (.pairMatchZero w) := fun _ => rfl

theorem pairMatchOne (w : SymW) : Statement (.pairMatchOne w) := fun _ => rfl

theorem pairMatchRep (w : SymW) : Statement (.pairMatchRep w) := fun _ => rfl

theorem classifyBit (w : SymW) : Statement (.classifyBit w) := fun _ => rfl

theorem checkLeading (w : SymW) : Statement (.checkLeading w) := fun _ => rfl

theorem checkRepeat (w : SymW) : Statement (.checkRepeat w) := fun _ => rfl

theorem dispatch (e : Event) : Statement (.dispatch e) := fun h => encodeEvent_length h

theorem parse (e : Event) : Statement (.parse e) :=
  fun h => encodeEvent_length (Bool.and_eq_true_iff.1 h).1

theorem repeatp (e : Event) : Statement (.repeatp e) :=
  fun h => encodeEvent_length (Bool.and_eq_true_iff.1 h).1

theorem unknownFramePath (e : Event) : Statement (.unknownFramePath e) :=
  fun h => encodeEvent_length (Bool.and_eq_true_iff.1 (Bool.and_eq_true_iff.1 h).1).1

theorem lookup (key : BitVec 8) : Statement (.lookup key) := fun _ => rfl

theorem armOk : Statement (.armOk) := fun _ => rfl

theorem armFail : Statement (.armFail) := fun _ => rfl

theorem dequeue : Statement (.dequeue) := fun _ => rfl

theorem timeout : Statement (.timeout) := fun _ => rfl

theorem decode : Statement (.decode) := fun _ => rfl

theorem pstep : Statement (.pstep) := fun _ => rfl

theorem reset : Statement (.reset) := fun _ => rfl

theorem outKey (f : OutFields) : Statement (.outKey f) := fun _ => rfl

theorem outUnmappedKey (f : OutFields) : Statement (.outUnmappedKey f) := fun _ => rfl

theorem outBadLeading (f : OutFields) : Statement (.outBadLeading f) := fun _ => rfl

theorem outBadBit (f : OutFields) : Statement (.outBadBit f) := fun _ => rfl

theorem outRepeat (f : OutFields) : Statement (.outRepeat f) := fun _ => rfl

theorem outNotRepeat (f : OutFields) : Statement (.outNotRepeat f) := fun _ => rfl

theorem outUnknownFrame (f : OutFields) : Statement (.outUnknownFrame f) := fun _ => rfl

end Sys2Proof.Laws.EncodedLength
end

