-- ==== Sys2Proof/Tests/Slice0.lean ====
section
/-! SUPPORT. Tests. Expected values come from spec/: words written out from the formats of
30_encoding.md, and the vectors of 95_test_vectors.md (their ids stand in the docstrings). Then, for
every obligation with hypotheses, a state and operands that meet them together. -/

namespace Sys2Proof.Tests

open Sys2Proof Sys2Proof.Machine

/-! ## States the tests run from -/

/-- A field of the next state, if there is one. -/
def after {α : Type} (r : Result) (f : State → α) : Option α :=
  match r with
  | .next t => some (f t)
  | .fault _ => none
  | .refused _ => none

/-- The refusal, if the answer is one. -/
def refusedBy (r : Result) : Option Refusal :=
  match r with
  | .next _ => none
  | .fault _ => none
  | .refused e => some e

/-- STATE, ARMED, RETRY_CNT, len(QUEUE), as 95_test_vectors.md writes a state. -/
def view (s : State) : Fsm × Bool × Nat × Nat := (s.fsm, s.armed, s.retryCnt, s.queue.length)

/-- LAST_ADDR, LAST_CMD, LAST_VALID. -/
def last (s : State) : BitVec 16 × BitVec 16 × Bool := (s.lastAddr, s.lastCmd, s.lastValid)

/-- Reset state, decoding an event. -/
def decoding (e : Event) : State := State.reset.holding e

/-- The same with a last pair. -/
def decodingAfter (e : Event) (a c : BitVec 16) : State :=
  { decoding e with lastAddr := a, lastCmd := c, lastValid := true }

/-- Reset state in WAIT with these events queued. -/
def waiting (q : List Event) : State := { State.reset with fsm := .wait, queue := q }

/-- Reset state, armed and waiting. -/
def armedWait : State := { State.reset with fsm := .wait, armed := true }

/-- Reset state with a configuration that allows posts while disarmed. -/
def disarmedPosts : State :=
  State.powerOn { Config.specDefault with postWhenDisarmed := true }

/-- Reset state with two retries of the arm request. -/
def twoRetries (n : Nat) : State :=
  { State.powerOn { Config.specDefault with rearmRetries := 2 } with retryCnt := n }

/-- E1 of 95_test_vectors.md, `FRAME 0xFF00, 0xBA45`, its 34 words as the file lists them. -/
def e1 : Event := ⟨34,
  [0x1194A328#32, 0x02308230#32, 0x02308230#32, 0x02308230#32, 0x02308230#32, 0x02308230#32,
    0x02308230#32, 0x02308230#32, 0x02308230#32, 0x069A8230#32, 0x069A8230#32, 0x069A8230#32,
    0x069A8230#32, 0x069A8230#32, 0x069A8230#32, 0x069A8230#32, 0x069A8230#32] ++
  [0x069A8230#32, 0x02308230#32, 0x069A8230#32, 0x02308230#32, 0x02308230#32, 0x02308230#32,
    0x069A8230#32, 0x02308230#32, 0x02308230#32, 0x069A8230#32, 0x02308230#32, 0x069A8230#32,
    0x069A8230#32, 0x069A8230#32, 0x02308230#32, 0x069A8230#32, 0x00008230#32]⟩

/-- A frame with one symbol replaced. -/
def patched (e : Event) (k : Nat) (w : SymW) : Event := { e with sym := e.sym.set k w }

/-- The event of the PSTEP abort trace (95_test_vectors.md, section 2.4). -/
def abortEvent : Event :=
  ⟨34, [0x1194A328#32, 0x069A8230#32, 0x069A8230#32, 0x069A8230#32, 0x00008230#32] ++
    List.replicate 29 0x02308230#32⟩

/-- The parser `k` bits into an event. -/
def bitsIn (e : Event) (k : Nat) (sr : BitVec 32) : State :=
  { decoding e with sr := sr, bitCnt := BitVec.ofNat 6 k, idx := BitVec.ofNat 16 (k + 1) }

/-! ## Well-formedness refuses one term for each check -/

theorem test_wf_count_of_words : (Instr.post ⟨2, [0#32]⟩).wf = false := by decide

theorem test_wf_count_width : Event.fitsHeader ⟨65536, []⟩ = false := by decide

theorem test_wf_measured_width : (Instr.inRange 32768 560).wf = false := by decide

theorem test_wf_parse_count : (Instr.parse ⟨2, [0#32, 0#32]⟩).wf = false := by decide

theorem test_wf_repeatp_count : (Instr.repeatp ⟨1, [0#32]⟩).wf = false := by decide

theorem test_wf_unknown_not_two : (Instr.unknownFramePath ⟨2, [0#32, 0#32]⟩).wf = false := by decide

theorem test_wf_unknown_not_34 :
    (Instr.unknownFramePath ⟨34, List.replicate 34 0#32⟩).wf = false := by decide

theorem test_wf_label_without_mapped :
    (Instr.outKey ⟨true, false, 0x01#8, 0#16, 0#16, 34#16⟩).wf = false := by decide

theorem test_wf_addr_without_lv :
    (Instr.outRepeat ⟨false, false, 0#8, 0xFF00#16, 0#16, 2#16⟩).wf = false := by decide

theorem test_wf_cmd_without_lv :
    (Instr.outRepeat ⟨false, false, 0#8, 0#16, 0xBA45#16, 2#16⟩).wf = false := by decide

/-! ## Decoding, one constructor at a time, from words of the spec's formats -/

theorem test_dec_symbol : decodeXact ⟨.symbolIn, [0x1194A328]⟩ = .ok (.symbol 0x1194A328#32) := by
  decide

theorem test_dec_post :
    decodeXact ⟨.fePost, [0x00000002, 0x08CAA328, 0x00008230]⟩
      = .ok (.post ⟨2, [0x08CAA328#32, 0x00008230#32]⟩) := by decide

theorem test_dec_post_reserved :
    decodeXact ⟨.fePost, [0x00010000]⟩ = .error .reservedHeaderBits := by decide

theorem test_dec_in_range : decodeXact ⟨.window, [760, 560]⟩ = .ok (.inRange 760 560) := by decide

theorem test_dec_pair_lead :
    decodeXact ⟨.comparator, [0b00, 0x1194A328]⟩ = .ok (.pairMatchLead 0x1194A328#32) := by decide

theorem test_dec_pair_zero :
    decodeXact ⟨.comparator, [0b01, 0x02308230]⟩ = .ok (.pairMatchZero 0x02308230#32) := by decide

theorem test_dec_pair_one :
    decodeXact ⟨.comparator, [0b10, 0x069A8230]⟩ = .ok (.pairMatchOne 0x069A8230#32) := by decide

theorem test_dec_pair_rep :
    decodeXact ⟨.comparator, [0b11, 0x08CAA328]⟩ = .ok (.pairMatchRep 0x08CAA328#32) := by decide

theorem test_dec_classify :
    decodeXact ⟨.bitClassifier, [0b10, 0x069A8230]⟩ = .ok (.classifyBit 0x069A8230#32) := by decide

theorem test_dec_leading :
    decodeXact ⟨.leadingCheck, [0b00, 0x1194A328]⟩ = .ok (.checkLeading 0x1194A328#32) := by decide

theorem test_dec_repeat :
    decodeXact ⟨.repeatCheck, [0b11, 0x08CAA328]⟩ = .ok (.checkRepeat 0x08CAA328#32) := by decide

theorem test_dec_dispatch :
    decodeXact ⟨.dispatcher, [0x00000001, 0x02308230]⟩ = .ok (.dispatch ⟨1, [0x02308230#32]⟩) := by
  decide

theorem test_dec_parse :
    decodeXact ⟨.framePath, 0x00000022 :: List.replicate 34 0x02308230⟩
      = .ok (.parse ⟨34, List.replicate 34 0x02308230#32⟩) := by decide

theorem test_dec_repeatp :
    decodeXact ⟨.framePath, [0x00000002, 0x08CAA328, 0x00008230]⟩
      = .ok (.repeatp ⟨2, [0x08CAA328#32, 0x00008230#32]⟩) := by decide

theorem test_dec_unknown :
    decodeXact ⟨.framePath, [0x00000001, 0x02308230]⟩
      = .ok (.unknownFramePath ⟨1, [0x02308230#32]⟩) := by decide

theorem test_dec_lookup : decodeXact ⟨.cmdTable, [0xBA]⟩ = .ok (.lookup 0xBA#8) := by decide

/-- STATE = ARM, arm_resp = 1 (R81). -/
theorem test_dec_arm_ok : decodeXact ⟨.controller, [0b001000]⟩ = .ok .armOk := by decide

/-- STATE = ARM, arm_resp = 0, whatever bits 4 and 5 hold (mask 0x0F). -/
theorem test_dec_arm_fail : decodeXact ⟨.controller, [0b110000]⟩ = .ok .armFail := by decide

/-- STATE = WAIT, len(QUEUE) > 0. -/
theorem test_dec_dequeue : decodeXact ⟨.controller, [0b010001]⟩ = .ok .dequeue := by decide

/-- STATE = WAIT, len(QUEUE) = 0, tmo. -/
theorem test_dec_timeout : decodeXact ⟨.controller, [0b100001]⟩ = .ok .timeout := by decide

theorem test_dec_decode : decodeXact ⟨.controller, [0b000010]⟩ = .ok .decode := by decide

theorem test_dec_pstep : decodeXact ⟨.sequencer, [0b000010]⟩ = .ok .pstep := by decide

theorem test_dec_reset : decodeXact ⟨.rst, [1]⟩ = .ok .reset := by decide

/-- STATE = FAULT selects no step; a reserved STATE is refused (R77, R81). -/
theorem test_dec_no_step :
    decodeXact ⟨.controller, [0b111111]⟩ = .error (.noSuchSelector .controller) ∧
    decodeXact ⟨.controller, [0b000011]⟩ = .error .reservedState := by decide

theorem test_dec_out_key :
    decodeXact ⟨.out, [0x0022BA45FF000131]⟩
      = .ok (.outKey ⟨true, true, 0x01#8, 0xFF00#16, 0xBA45#16, 34#16⟩) := by decide

theorem test_dec_out_unmapped_key :
    decodeXact ⟨.out, [0x002200FF00FF0012]⟩
      = .ok (.outUnmappedKey ⟨true, false, 0#8, 0x00FF#16, 0x00FF#16, 34#16⟩) := by decide

theorem test_dec_out_bad_leading :
    decodeXact ⟨.out, [0x0022000000000003]⟩
      = .ok (.outBadLeading ⟨false, false, 0#8, 0#16, 0#16, 34#16⟩) := by decide

theorem test_dec_out_bad_bit :
    decodeXact ⟨.out, [0x0022000000000004]⟩
      = .ok (.outBadBit ⟨false, false, 0#8, 0#16, 0#16, 34#16⟩) := by decide

theorem test_dec_out_repeat :
    decodeXact ⟨.out, [0x0002BA45FF000135]⟩
      = .ok (.outRepeat ⟨true, true, 0x01#8, 0xFF00#16, 0xBA45#16, 2#16⟩) := by decide

theorem test_dec_out_not_repeat :
    decodeXact ⟨.out, [0x0002000000000006]⟩
      = .ok (.outNotRepeat ⟨false, false, 0#8, 0#16, 0#16, 2#16⟩) := by decide

theorem test_dec_out_unknown_frame :
    decodeXact ⟨.out, [0x0005000000000007]⟩
      = .ok (.outUnknownFrame ⟨false, false, 0#8, 0#16, 0#16, 5#16⟩) := by decide

/-- Reserved outcome words (R75): CODE 0 and 8, bits 7:6, LABEL with MAPPED = 0, ADDR with LV = 0. -/
theorem test_dec_out_reserved :
    decodeXact ⟨.out, [0x0022000000000000]⟩ = .error .reservedOutcomeCode ∧
    decodeXact ⟨.out, [0x0022000000000008]⟩ = .error .reservedOutcomeCode ∧
    decodeXact ⟨.out, [0x0022000000000043]⟩ = .error .reservedOutcomeBits ∧
    decodeXact ⟨.out, [0x0022000000000111]⟩ = .error .labelWithoutHit ∧
    decodeXact ⟨.out, [0x0022000000010003]⟩ = .error .pairWithoutLv := by decide

/-- The opcode table's numbering: a CTLSEL word, an event header, an outcome word. -/
theorem test_table_words :
    decodeTableWord 8 0x11 = some .dequeue ∧
    decodeTableWord 32 0x00000002 = some (.repeatp ⟨2, [0#32, 0#32]⟩) ∧
    decodeTableWord 32 0x1194A328 = some (.symbol 0x1194A328#32) ∧
    decodeTableWord 64 0x0022BA45FF000131
      = some (.outKey ⟨true, true, 0x01#8, 0xFF00#16, 0xBA45#16, 34#16⟩) := by decide

/-- withFetchWord: the very next step runs the word's operation. -/
theorem test_fetch_dequeue :
    after (step (State.reset.withFetchWord 8 0x11)) view = some (.decode, false, 0, 0) := by decide

theorem test_fetch_outcome :
    after (step (State.reset.withFetchWord 64 0x0022BA45FF000131)) State.out
      = some [0x0022BA45FF000131#64] := by decide

/-! ## Timing classifier -/

/-- R70: W_LEAD is (9000, 4500). -/
theorem test_symbol :
    after (exec (.symbol 0x1194A328#32) State.reset) State.comb = some (.durations 9000 4500) := by
  decide

/-- L2-C7, L2-C8. -/
theorem test_in_range_upper :
    after (exec (.inRange 759 560) State.reset) State.comb = some (.flag true) ∧
    after (exec (.inRange 760 560) State.reset) State.comb = some (.flag false) := by decide

/-- L2-C5, L2-C29: exclusive lower bound, and no wrap-around. -/
theorem test_in_range_lower :
    after (exec (.inRange 360 560) State.reset) State.comb = some (.flag false) ∧
    after (exec (.inRange 0 100) State.reset) State.comb = some (.flag true) := by decide

/-- L2-B19, L2-B1. -/
theorem test_pair_lead :
    after (exec (.pairMatchLead 0x1194A328#32) State.reset) State.comb = some (.flag true) ∧
    after (exec (.pairMatchLead 0x02308230#32) State.reset) State.comb = some (.flag false) := by
  decide

/-- L2-B9, L2-B10: the high half. -/
theorem test_pair_zero :
    after (exec (.pairMatchZero 0x023082F7#32) State.reset) State.comb = some (.flag true) ∧
    after (exec (.pairMatchZero 0x023082F8#32) State.reset) State.comb = some (.flag false) := by
  decide

/-- L2-B12, L2-B1. -/
theorem test_pair_one :
    after (exec (.pairMatchOne 0x05D38230#32) State.reset) State.comb = some (.flag true) ∧
    after (exec (.pairMatchOne 0x02308230#32) State.reset) State.comb = some (.flag false) := by
  decide

/-- L2-B20, L2-B19. -/
theorem test_pair_rep :
    after (exec (.pairMatchRep 0x08CAA328#32) State.reset) State.comb = some (.flag true) ∧
    after (exec (.pairMatchRep 0x1194A328#32) State.reset) State.comb = some (.flag false) := by
  decide

/-- L2-B27, L2-B28: the level bits are ignored. -/
theorem test_classify_bit :
    after (exec (.classifyBit 0x82308230#32) State.reset) State.comb = some (.bitClass .zero) ∧
    after (exec (.classifyBit 0x869A0230#32) State.reset) State.comb = some (.bitClass .one) := by
  decide

/-- L2-B25, between the windows. -/
theorem test_classify_invalid :
    after (exec (.classifyBit 0x044C8230#32) State.reset) State.comb = some (.bitClass .invalid) := by
  decide

/-- L2-L2, L2-L7. -/
theorem test_check_leading :
    after (exec (.checkLeading 0x10CDA261#32) State.reset) State.comb = some (.flag true) ∧
    after (exec (.checkLeading 0x125CA328#32) State.reset) State.comb = some (.flag false) := by
  decide

/-- L2-L13, L2-L10. -/
theorem test_check_repeat :
    after (exec (.checkRepeat 0x0991A261#32) State.reset) State.comb = some (.flag true) ∧
    after (exec (.checkRepeat 0x0992A328#32) State.reset) State.comb = some (.flag false) := by
  decide

/-! ## Parser -/

/-- R84: FRAME expands to the words E1 lists. -/
theorem test_frame_expansion : frameEvent 0xFF00#16 0xBA45#16 = e1 := by decide

/-- L2-P4. -/
theorem test_parse :
    after (exec (.parse (frameEvent 0x1234#16 0xABCD#16)) State.reset) State.comb
      = some (.parsed (.ok 0x1234#16 0xABCD#16)) := by decide

/-- L2-P10 (leading first) and L2-P14 (last data bit). -/
theorem test_parse_rejects :
    after (exec (.parse (patched (patched e1 0 0x08CAA328#32) 5 0x00008230#32)) State.reset)
      State.comb = some (.parsed .badLeading) ∧
    after (exec (.parse (patched e1 32 0x00008230#32)) State.reset) State.comb
      = some (.parsed .badBit) := by decide

/-- The PSTEP trace of L2-P4, from the row of 16 data bits to that of 17. -/
theorem test_pstep_trace :
    after (exec .pstep (bitsIn (frameEvent 0x1234#16 0xABCD#16) 16 0x12340000#32))
      (fun t => (t.bitCnt, t.idx, t.sr)) = some (17#6, 18#16, 0x891A0000#32) := by decide

/-- The PSTEP abort trace: SR keeps its bits and the frame is reported as BAD_BIT. -/
theorem test_pstep_abort :
    after (exec .pstep (bitsIn abortEvent 3 0xE0000000#32))
      (fun t => (t.bitCnt, t.idx, t.sr, t.out, t.fsm))
      = some (3#6, 4#16, 0xE0000000#32, [0x0022000000000004#64], .arm) := by decide

/-! ## Dispatcher -/

/-- L2-D10, L2-D22. -/
theorem test_dispatch :
    after (exec (.dispatch repeatEvent) (decodingAfter repeatEvent 0xFF00#16 0xBA45#16)) State.comb
      = some (.dispatched ⟨0x0002BA45FF000135#64, 0xFF00#16, 0xBA45#16, true⟩) ∧
    after (exec (.dispatch (junkEvent 35)) State.reset) State.comb
      = some (.dispatched ⟨0x0023000000000007#64, 0#16, 0#16, false⟩) := by decide

/-- L2-D9, L2-D13. -/
theorem test_repeatp :
    after (exec (.repeatp repeatEvent) State.reset) State.comb
      = some (.dispatched ⟨0x0002000000000005#64, 0#16, 0#16, false⟩) ∧
    after (exec (.repeatp ⟨2, [0x1194A328#32, 0x00008230#32]⟩) State.reset) State.comb
      = some (.dispatched ⟨0x0002000000000006#64, 0#16, 0#16, false⟩) := by decide

/-- L2-D15, L2-D23: the smallest and the largest count. -/
theorem test_unknown_frame_path :
    after (exec (.unknownFramePath ⟨0, []⟩) State.reset) State.comb
      = some (.dispatched ⟨0x0000000000000007#64, 0#16, 0#16, false⟩) ∧
    after (exec (.unknownFramePath (junkEvent 64)) State.reset) State.comb
      = some (.dispatched ⟨0x0040000000000007#64, 0#16, 0#16, false⟩) := by decide

/-- L2-K1, L2-K3. -/
theorem test_lookup :
    after (exec (.lookup 0xBA#8) State.reset) State.comb = some (.entry true 0x01#8) ∧
    after (exec (.lookup 0xBB#8) State.reset) State.comb = some (.entry false 0x00#8) := by decide

/-- L2-D1. -/
theorem test_out_key :
    after (exec (.outKey ⟨true, true, 0x01#8, 0xFF00#16, 0xBA45#16, 34#16⟩) (decoding e1))
      (fun t => (t.out, last t))
      = some ([0x0022BA45FF000131#64], (0xFF00#16, 0xBA45#16, true)) := by decide

/-- L1-5. -/
theorem test_out_unmapped_key :
    after (exec (.outUnmappedKey ⟨true, false, 0#8, 0x00FF#16, 0x00FF#16, 34#16⟩)
      (decoding (frameEvent 0x00FF#16 0x00FF#16))) (fun t => (t.out, last t))
      = some ([0x002200FF00FF0012#64], (0x00FF#16, 0x00FF#16, true)) := by decide

/-- L2-D6. -/
theorem test_out_bad_leading :
    after (exec (.outBadLeading ⟨false, false, 0#8, 0#16, 0#16, 34#16⟩)
      (decoding (patched e1 0 0x08CAA328#32))) (fun t => (t.out, last t))
      = some ([0x0022000000000003#64], (0#16, 0#16, false)) := by decide

/-- L2-D7: the last pair of before stays. -/
theorem test_out_bad_bit :
    after (exec (.outBadBit ⟨false, false, 0#8, 0#16, 0#16, 34#16⟩)
      (decodingAfter (patched e1 1 0x00008230#32) 0x1111#16 0x2222#16)) (fun t => (t.out, last t))
      = some ([0x0022000000000004#64], (0x1111#16, 0x2222#16, true)) := by decide

/-- L2-D11. -/
theorem test_out_repeat :
    after (exec (.outRepeat ⟨true, false, 0#8, 0x00FF#16, 0x00FF#16, 2#16⟩)
      (decodingAfter repeatEvent 0x00FF#16 0x00FF#16)) State.out
      = some [0x000200FF00FF0015#64] := by decide

/-- L2-D14. -/
theorem test_out_not_repeat :
    after (exec (.outNotRepeat ⟨false, false, 0#8, 0#16, 0#16, 2#16⟩)
      (decoding ⟨2, [0x0992A328#32, 0x00008230#32]⟩)) State.out
      = some [0x0002000000000006#64] := by decide

/-- L2-D19: the count decides first. -/
theorem test_out_unknown_frame :
    after (exec (.outUnknownFrame ⟨false, false, 0#8, 0#16, 0#16, 3#16⟩)
      (decoding ⟨3, [0x08CAA328#32, 0x00008230#32, 0x00008230#32]⟩)) State.out
      = some [0x0003000000000007#64] := by decide

/-- A word the block does not emit for this event is refused (log 7). -/
theorem test_out_other_word :
    refusedBy (exec (.outRepeat ⟨false, false, 0#8, 0#16, 0#16, 2#16⟩) (decoding e1))
      = some .outcomeNotEmitted := by decide

/-! ## Control FSM -/

/-- L2-F2, L2-F6. -/
theorem test_arm_ok :
    after (exec .armOk State.reset) view = some (.wait, true, 0, 0) ∧
    after (exec .armOk (twoRetries 2)) view = some (.wait, true, 0, 0) := by decide

/-- L2-F3, L2-F4, L2-F5. -/
theorem test_arm_fail :
    after (exec .armFail State.reset) view = some (.fault, false, 0, 0) ∧
    after (exec .armFail (twoRetries 0)) view = some (.arm, false, 1, 0) ∧
    after (exec .armFail (twoRetries 2)) view = some (.fault, false, 2, 0) := by decide

/-- L2-F7, L2-F8. -/
theorem test_post :
    after (exec (.post (junkEvent 1)) armedWait) (fun t => (view t, t.queue))
      = some ((.wait, false, 0, 1), [junkEvent 1]) ∧
    refusedBy (exec (.post (junkEvent 1)) (waiting [])) = some .notEnabled := by decide

/-- L2-F9: the new event is the one dropped. -/
theorem test_post_drops :
    after (exec (.post (junkEvent 3))
      { disarmedPosts with armed := true, queue := [junkEvent 1, repeatEvent] })
      (fun t => (t.armed, t.queue)) = some (false, [junkEvent 1, repeatEvent]) := by decide

/-- L2-F10. -/
theorem test_dequeue :
    after (exec .dequeue (waiting [repeatEvent, junkEvent 1]))
      (fun t => (t.fsm, t.curEvt, t.queue))
      = some (.decode, some repeatEvent, [junkEvent 1]) := by decide

/-- L2-F11, L2-F12. -/
theorem test_timeout :
    after (exec .timeout armedWait) id = some armedWait ∧
    refusedBy (exec .timeout (waiting [junkEvent 1])) = some .notEnabled := by decide

/-- L2-F13. -/
theorem test_decode :
    after (exec .decode (decoding (junkEvent 5))) (fun t => (view t, t.out, t.curEvt))
      = some ((.arm, false, 0, 0), [0x0005000000000007#64], none) := by decide

/-- L2-D2. -/
theorem test_decode_frame :
    after (exec .decode (decoding (frameEvent 0x0000#16 0x0000#16))) (fun t => (t.out, last t))
      = some ([0x0022000000000012#64], (0#16, 0#16, true)) := by decide

/-- L2-F1, L2-F15. -/
theorem test_reset :
    after (exec .reset { waiting [junkEvent 1, e1] with fsm := .fault }) view
      = some (.arm, false, 0, 0) ∧
    after (exec .reset (decodingAfter e1 0xFF00#16 0xBA45#16)) (fun t => (t.curEvt, last t, t.out))
      = some (none, (0#16, 0#16, false), []) := by decide

/-- L2-F14. -/
theorem test_fault_no_step :
    refusedBy (exec .dequeue { waiting [e1] with fsm := .fault }) = some .notEnabled := by decide

/-! ## Configuration (95_test_vectors.md, section 2.7) -/

/-- L2-W1 to L2-W5. -/
theorem test_config :
    configOk Config.specDefault = true ∧
    configOk { Config.specDefault with tOneL := 959 } = true ∧
    configOk { Config.specDefault with tOneL := 958 } = false ∧
    configOk { Config.specDefault with margin := 0 } = false ∧
    configOk { Config.specDefault with tOneH := 1000, tOneL := 560 } = true := by decide

/-! ## Witnesses: for each obligation, a state and operands that meet its hypotheses together -/

/-- A script of one transaction. -/
def scripted (i : Instr) : State := { State.reset with stim := [encode i] }

theorem decoding_e1 : (decoding e1).Decoding e1 := ⟨rfl, rfl, by decide⟩

theorem decoding_rejected :
    (decoding (patched e1 0 0x08CAA328#32)).Decoding (patched e1 0 0x08CAA328#32) ∧
    (decoding (patched e1 1 0x00008230#32)).Decoding (patched e1 1 0x00008230#32) :=
  ⟨⟨rfl, rfl, by decide⟩, ⟨rfl, rfl, by decide⟩⟩

theorem decoding_repeat : (decoding repeatEvent).Decoding repeatEvent := ⟨rfl, rfl, by decide⟩

theorem decoding_junk :
    (decoding (junkEvent 0)).Decoding (junkEvent 0) ∧
    (decoding (junkEvent 64)).Decoding (junkEvent 64) :=
  ⟨⟨rfl, rfl, by decide⟩, ⟨rfl, rfl, by decide⟩⟩

theorem reset_inv : State.reset.Inv where
  config := by decide
  retry := by decide
  storage := ⟨by decide, by intro e h; cases h⟩
  curHeld := by decide
  curOk := by intro e h; cases h
  lastClear := fun _ => ⟨rfl, rfl⟩
  bitRange := by decide
  idxRange := by decide
  outLegal := by intro w h; cases h

theorem scripted_inv (i : Instr) : (scripted i).Inv :=
  ⟨reset_inv.config, reset_inv.retry, reset_inv.storage, reset_inv.curHeld, reset_inv.curOk,
    reset_inv.lastClear, reset_inv.bitRange, reset_inv.idxRange, reset_inv.outLegal⟩

theorem decoding_inv : (decoding e1).Inv where
  config := by decide
  retry := by decide
  storage := ⟨by decide, by intro e h; cases h⟩
  curHeld := by decide
  curOk := by intro e h; cases h; decide
  lastClear := fun _ => ⟨rfl, rfl⟩
  bitRange := by decide
  idxRange := by decide
  outLegal := by intro w h; cases h

theorem witness_DecodeOfEncodeIsIdentity :
    (Instr.post ⟨0, []⟩).wf = true ∧ (Instr.inRange 32767 0).wf = true ∧
    (Instr.parse e1).wf = true ∧ (Instr.repeatp repeatEvent).wf = true ∧
    (Instr.unknownFramePath (junkEvent 64)).wf = true ∧
    (Instr.outKey ⟨true, true, 0xFF#8, 0xFFFF#16, 0xFFFF#16, 34#16⟩).wf = true := by decide

/-- A legal word, and one for each way to be reserved, at its boundary. -/
theorem witness_ReservedOutcomeWordsRefused :
    0x0022BA45FF000131 < 2 ^ 64 ∧
    (0x0022000000000000 < 2 ^ 64 ∧ 0x0022000000000000 % 16 = 0) ∧
    (0x0022000000000008 < 2 ^ 64 ∧ 8 ≤ 0x0022000000000008 % 16) ∧
    (0x0022000000000043 < 2 ^ 64 ∧ 0x0022000000000043 / 2 ^ 6 % 4 ≠ 0) ∧
    (0x0022000000000111 / 2 ^ 5 % 2 = 0 ∧ 0x0022000000000111 / 2 ^ 8 % 256 ≠ 0) ∧
    (0x0022000000010003 / 2 ^ 4 % 2 = 0 ∧ 0x0022000000010003 / 2 ^ 16 % 65536 ≠ 0) := by decide

theorem witness_EventWordsDecodeByHeader :
    decodeXact ⟨.fePost, [0]⟩ = .ok (.post ⟨0, []⟩) ∧
    decodeXact ⟨.fePost, [1, 4294967295]⟩ = .ok (.post ⟨1, [0xFFFFFFFF#32]⟩) := by decide

theorem witness_WindowCheckIsNonOverlap : 1 ≤ Config.specDefault.margin := by decide

/-- MARGIN = 0, and the overlap of L2-W3: 759 lies in both low windows. -/
theorem witness_IllFormedConfigurationTakesNoStep :
    (State.powerOn { Config.specDefault with margin := 0 }).cfg.margin = 0 ∧
    (let cfg := { Config.specDefault with tOneL := 958 }
     (inRange cfg 560 cfg.tZeroH = true ∧ inRange cfg 759 cfg.tZeroL = true) ∧
      (inRange cfg 560 cfg.tOneH = true ∧ inRange cfg 759 cfg.tOneL = true)) := by decide

theorem witness_ConfigurationNeverChanges :
    ∃ t, step (scripted .armOk) = .next t := ⟨_, rfl⟩

theorem witness_LevelBitsChangeNoResult : 0x80008000#32 &&& 0x7FFF7FFF#32 = 0#32 := by decide

/-- Each clause of the corners, at its boundary. -/
theorem witness_WindowCorners :
    1 ≤ Config.specDefault.margin ∧ Config.specDefault.margin ≤ 200 ∧
    Config.specDefault.margin - 1 ≤ 199 ∧ 199 < Config.specDefault.margin := by decide

theorem witness_BitWindowsNeverConflict :
    configOk Config.specDefault = true ∧
    (dur0 0x02308230#32 = Config.specDefault.tZeroH ∧ dur1 0x02308230#32 = Config.specDefault.tZeroL) ∧
    (dur0 0x069A8230#32 = Config.specDefault.tOneH ∧ dur1 0x069A8230#32 = Config.specDefault.tOneL) := by
  decide

theorem witness_CombinationalOperationsWriteNoRegister :
    combinational (.lookup 0#8) = true ∧ ∃ t, exec (.lookup 0#8) State.reset = .next t :=
  ⟨rfl, _, rfl⟩

theorem witness_ParseAssemblesLeastSignificantBitFirst :
    eventOk State.reset.cfg e1 = true ∧ e1.count = 34 ∧
    (symRead e1 0 = some 0x1194A328#32 ∧ checkLeading State.reset.cfg 0x1194A328#32 = true) ∧
    ∀ k, k < 32 → dataBit State.reset.cfg e1 k ≠ some .invalid := by decide

theorem witness_FailedLeadingCodeDecidesParse :
    eventOk State.reset.cfg (patched e1 0 0x08CAA328#32) = true ∧
    (patched e1 0 0x08CAA328#32).count = 34 ∧
    symRead (patched e1 0 0x08CAA328#32) 0 = some 0x08CAA328#32 ∧
    checkLeading State.reset.cfg 0x08CAA328#32 = false := by decide

/-- The first data bit and the last one. -/
theorem witness_AnyInvalidBitRejectsTheFrame :
    (eventOk State.reset.cfg (patched e1 1 0#32) = true ∧ (patched e1 1 0#32).count = 34 ∧
      symRead (patched e1 1 0#32) 0 = some 0x1194A328#32 ∧
      checkLeading State.reset.cfg 0x1194A328#32 = true ∧
      dataBit State.reset.cfg (patched e1 1 0#32) 0 = some .invalid) ∧
    (eventOk State.reset.cfg (patched e1 32 0#32) = true ∧
      symRead (patched e1 32 0#32) 0 = some 0x1194A328#32 ∧
      dataBit State.reset.cfg (patched e1 32 0#32) 31 = some .invalid) := by decide

/-- L2-P6 and L2-D12: the closing symbol replaced. -/
theorem witness_ClosingSymbolIsNeverRead :
    (eventOk State.reset.cfg e1 = true ∧ eventOk State.reset.cfg (patched e1 33 0xFFFFFFFF#32) = true ∧
      e1.count = (patched e1 33 0xFFFFFFFF#32).count ∧ e1.count = 34 ∧
      ∀ i, i < 33 → symRead e1 i = symRead (patched e1 33 0xFFFFFFFF#32) i) ∧
    (eventOk State.reset.cfg repeatEvent = true ∧
      eventOk State.reset.cfg (patched repeatEvent 1 0xFFFFFFFF#32) = true ∧
      repeatEvent.count = (patched repeatEvent 1 0xFFFFFFFF#32).count ∧ repeatEvent.count = 2 ∧
      symRead repeatEvent 0 = symRead (patched repeatEvent 1 0xFFFFFFFF#32) 0) := by decide

theorem bitsIn_decoding (k : Nat) (sr : BitVec 32) : (bitsIn e1 k sr).Decoding e1 :=
  ⟨rfl, rfl, (by decide : eventOk Config.specDefault e1 = true)⟩

/-- A micro-step is taken; the leading code; the first data symbol and the last one but one. -/
theorem witness_PstepShiftsOneBitIn :
    Enabled .pstep (decoding e1) ∧
    ((decoding e1).Decoding e1 ∧ e1.count = 34 ∧
      symRead e1 (decoding e1).idx.toNat = some 0x1194A328#32 ∧ (decoding e1).idx = 0#16 ∧
      (decoding e1).bitCnt = 0#6 ∧ checkLeading (decoding e1).cfg 0x1194A328#32 = true) ∧
    ((bitsIn e1 0 0#32).Decoding e1 ∧ 1 ≤ (bitsIn e1 0 0#32).idx.toNat ∧
      (bitsIn e1 0 0#32).bitCnt.toNat < 31 ∧ symRead e1 1 = some 0x02308230#32 ∧
      classifyBit Config.specDefault 0x02308230#32 ≠ .invalid) ∧
    ((bitsIn e1 30 0#32).Decoding e1 ∧ (bitsIn e1 30 0#32).idx.toNat ≤ 32 ∧
      (bitsIn e1 30 0#32).bitCnt.toNat < 31 ∧ symRead e1 31 = some 0x02308230#32 ∧
      classifyBit Config.specDefault 0x02308230#32 ≠ .invalid) :=
  ⟨⟨_, rfl⟩, ⟨decoding_e1, by decide⟩, ⟨bitsIn_decoding 0 0#32, by decide⟩,
    ⟨bitsIn_decoding 30 0#32, by decide⟩⟩

/-- Outside DECODE, and for another count; a failed leading code; an Invalid data symbol; the last data
symbol. -/
theorem witness_PstepFinishesTheDecode :
    ((waiting [e1]).fsm ≠ .decode ∧ (decoding repeatEvent).curEvt = some repeatEvent ∧
      repeatEvent.count ≠ 34) ∧
    ((decoding (patched e1 0 0x08CAA328#32)).Decoding (patched e1 0 0x08CAA328#32) ∧
      symRead (patched e1 0 0x08CAA328#32) 0 = some 0x08CAA328#32 ∧
      checkLeading Config.specDefault 0x08CAA328#32 = false) ∧
    ((bitsIn (patched e1 1 0x00008230#32) 0 0#32).Decoding (patched e1 1 0x00008230#32) ∧
      symRead (patched e1 1 0x00008230#32) 1 = some 0x00008230#32 ∧
      classifyBit Config.specDefault 0x00008230#32 = .invalid) ∧
    ((bitsIn e1 31 0#32).Decoding e1 ∧ (bitsIn e1 31 0#32).idx.toNat = 32 ∧
      (bitsIn e1 31 0#32).bitCnt.toNat = 31 ∧ symRead e1 32 = some 0x069A8230#32 ∧
      classifyBit Config.specDefault 0x069A8230#32 ≠ .invalid) :=
  ⟨by decide, ⟨decoding_rejected.1, by decide⟩, ⟨⟨rfl, rfl, by decide⟩, by decide⟩,
    ⟨bitsIn_decoding 31 0#32, by decide⟩⟩

theorem witness_PstepRunEqualsDecode :
    (decoding e1).Decoding e1 ∧ e1.count = 34 ∧ (decoding e1).sr = 0#32 ∧
    (decoding e1).bitCnt = 0#6 ∧ (decoding e1).idx = 0#16 := ⟨decoding_e1, by decide⟩

/-- One event for each path, and a parse result for the normal one. -/
theorem witness_DispatchSelectsThePathByCount :
    (eventOk State.reset.cfg repeatEvent = true ∧ repeatEvent.count = 2) ∧
    (eventOk State.reset.cfg (junkEvent 33) = true ∧ (junkEvent 33).count ≠ 34 ∧
      (junkEvent 33).count ≠ 2) ∧
    (eventOk State.reset.cfg e1 = true ∧ e1.count = 34 ∧
      after (exec (.parse e1) State.reset) id
        = some { State.reset with comb := .parsed (.ok 0xFF00#16 0xBA45#16) }) := by decide

theorem witness_DispatchIsTotal :
    configOk State.reset.cfg = true ∧ eventOk State.reset.cfg (junkEvent 0) = true ∧
    eventOk State.reset.cfg (junkEvent 64) = true := by decide

theorem witness_LookupReadsTheTable :
    keysRising State.reset.cfg.cmdTable = true ∧
    (0xBA#8, 0x01#8) ∈ State.reset.cfg.cmdTable ∧
    ∀ l, (0xBB#8, l) ∉ State.reset.cfg.cmdTable :=
  ⟨by decide, by decide, by intro l h; simp [State.reset, Config.specDefault] at h⟩

theorem witness_RepeatPathReportsTheLastPair :
    eventOk State.reset.cfg repeatEvent = true ∧ repeatEvent.count = 2 ∧
    symRead repeatEvent 0 = some 0x08CAA328#32 := by decide

theorem witness_UnknownFramePathReportsTheCount :
    configOk State.reset.cfg = true ∧ eventOk State.reset.cfg (junkEvent 35) = true ∧
    (junkEvent 35).count ≠ 34 ∧ (junkEvent 35).count ≠ 2 := by decide

/-- A mapped key and an unmapped one. -/
theorem witness_GoodFrameEmitsKeyOrUnmappedKey :
    (decoding e1).Decoding e1 ∧
    (e1.count = 34 ∧ parse (decoding e1).cfg e1 = some (.ok 0xFF00#16 0xBA45#16) ∧
      lookup (decoding e1).cfg (cmdKey 0xBA45#16) = (true, 0x01#8)) ∧
    (parse Config.specDefault (frameEvent 0x00FF#16 0x00FF#16) = some (.ok 0x00FF#16 0x00FF#16) ∧
      (lookup Config.specDefault (cmdKey 0x00FF#16)).1 = false) := ⟨decoding_e1, by decide⟩

theorem witness_RejectedFrameKeepsTheLastPair :
    ((decoding (patched e1 0 0x08CAA328#32)).Decoding (patched e1 0 0x08CAA328#32) ∧
      parse Config.specDefault (patched e1 0 0x08CAA328#32) = some .badLeading) ∧
    ((decoding (patched e1 1 0x00008230#32)).Decoding (patched e1 1 0x00008230#32) ∧
      parse Config.specDefault (patched e1 1 0x00008230#32) = some .badBit) :=
  ⟨⟨decoding_rejected.1, by decide⟩, ⟨decoding_rejected.2, by decide⟩⟩

/-- A repeat with a last pair, one without, and no repeat (L2-D13). -/
theorem witness_RepeatFrameEmitsRepeatOrNotRepeat :
    ((decodingAfter repeatEvent 0xFF00#16 0xBA45#16).Decoding repeatEvent ∧
      symRead repeatEvent 0 = some 0x08CAA328#32 ∧
      checkRepeat Config.specDefault 0x08CAA328#32 = true) ∧
    ((decoding repeatEvent).Decoding repeatEvent ∧ (decoding repeatEvent).lastValid = false) ∧
    ((decoding (patched repeatEvent 0 0x1194A328#32)).Decoding (patched repeatEvent 0 0x1194A328#32) ∧
      checkRepeat Config.specDefault 0x1194A328#32 = false) :=
  ⟨⟨⟨rfl, rfl, by decide⟩, by decide⟩, ⟨decoding_repeat, rfl⟩,
    ⟨⟨rfl, rfl, by decide⟩, by decide⟩⟩

theorem witness_OtherLengthEmitsUnknownFrame :
    configOk (decoding (junkEvent 0)).cfg = true ∧
    (decoding (junkEvent 0)).Decoding (junkEvent 0) ∧ (junkEvent 0).count ≠ 34 ∧
    (junkEvent 0).count ≠ 2 := ⟨by decide, decoding_junk.1, by decide, by decide⟩

theorem witness_OutcomeOperationIsTheDecodeThatEmitsIt :
    ∃ t, exec (.outKey ⟨true, true, 0x01#8, 0xFF00#16, 0xBA45#16, 34#16⟩) (decoding e1) = .next t :=
  ⟨_, rfl⟩

theorem progress_decoding : (decoding e1).ParserProgress :=
  fun _ _ _ _ => .inl ⟨rfl, rfl, rfl⟩

/-- The clause that writes the pair: a DECODE of a good frame. -/
theorem witness_LastPairWrittenOnlyByGoodFrames :
    (decoding e1).Inv ∧ (decoding e1).ParserProgress ∧ ∃ t, exec .decode (decoding e1) = .next t :=
  ⟨decoding_inv, progress_decoding, _, rfl⟩

theorem witness_OneOutcomePerDecodedEvent :
    (decoding e1).Inv ∧ ∃ t, exec .decode (decoding e1) = .next t := ⟨decoding_inv, _, rfl⟩

theorem witness_EmittedWordsAreNeverWithdrawn :
    ∃ t, steps 1 { decoding e1 with stim := [encode .decode] } = .next t := ⟨_, rfl⟩

/-- A word of DECODE, and one of a finishing micro-step. -/
theorem witness_OutcomeFieldsFollowTheCode :
    (∃ t, exec .decode (decoding e1) = .next t ∧
      t.out = (decoding e1).out ++ [0x0022BA45FF000131#64]) ∧
    ∃ t, exec .pstep (bitsIn abortEvent 3 0xE0000000#32) = .next t ∧
      t.out = (bitsIn abortEvent 3 0xE0000000#32).out ++ [0x0022000000000004#64] :=
  ⟨⟨_, rfl, by decide⟩, ⟨_, rfl, by decide⟩⟩

/-- Two states that differ in their queues. -/
theorem witness_OutcomeDependsOnEventAndLastPairAlone :
    let s := decoding e1
    let s' := { decoding e1 with queue := [repeatEvent], armed := true }
    s.cfg = s'.cfg ∧ s.curEvt = s'.curEvt ∧ s.lastAddr = s'.lastAddr ∧ s.lastCmd = s'.lastCmd ∧
      s.lastValid = s'.lastValid ∧ (∃ t, exec .decode s = .next t) ∧ ∃ t, exec .decode s' = .next t :=
  ⟨rfl, rfl, rfl, rfl, rfl, ⟨_, rfl⟩, ⟨_, rfl⟩⟩

theorem witness_NominalFrameDecodesToItsPair :
    configOk (decoding e1).cfg = true ∧ (decoding e1).fsm = .decode ∧
    (decoding e1).cfg.tLeadH < 32768 ∧ (decoding e1).cfg.tLeadL < 32768 ∧
    (decoding e1).cfg.tZeroH < 32768 ∧ (decoding e1).cfg.tZeroL < 32768 ∧
    (decoding e1).cfg.tOneH < 32768 ∧ (decoding e1).cfg.tOneL < 32768 ∧
    (decoding e1).curEvt = some ⟨34, frameSyms (nominalWord 9000 4500) (nominalWord 560 1690)
      (nominalWord 560 560) 0x00008230#32 0xFF00#16 0xBA45#16⟩ := by decide

theorem witness_ArmOkArmsAndWaits : State.reset.fsm = .arm := rfl

/-- A retry left, and none left (the last value below the limit, and the limit). -/
theorem witness_ArmFailRetriesThenFaults :
    ((twoRetries 1).fsm = .arm ∧ (twoRetries 1).retryCnt < (twoRetries 1).cfg.rearmRetries) ∧
    ((twoRetries 2).fsm = .arm ∧ ¬ (twoRetries 2).retryCnt < (twoRetries 2).cfg.rearmRetries) := by
  decide

theorem witness_RetriesRunOutAtTheLimit :
    (twoRetries 0).fsm = .arm ∧ (twoRetries 0).retryCnt = 0 := by decide

/-- A free slot, and a full queue. -/
theorem witness_PostQueuesAtTheTailOrDrops :
    (armedWait.armed = true ∧ eventOk armedWait.cfg repeatEvent = true ∧
      armedWait.queue.length < armedWait.cfg.qdepth) ∧
    (let s := { disarmedPosts with queue := [repeatEvent, junkEvent 1] }
     s.cfg.postWhenDisarmed = true ∧ eventOk s.cfg e1 = true ∧
      ¬ s.queue.length < s.cfg.qdepth) := by decide

theorem witness_DequeueTakesTheHead :
    ((waiting [e1]).fsm = .wait ∧ (waiting [e1]).queue = [e1] ∧ e1.count = 34) ∧
    ((waiting [repeatEvent]).queue = [repeatEvent] ∧ repeatEvent.count ≠ 34) := by decide

/-- A run with an event queued, decoded and the front end armed again; then TIMEOUT for ever. -/
def demoState : Nat → State
  | 0 => waiting [junkEvent 1]
  | 1 => (waiting [junkEvent 1]).taken (junkEvent 1) []
  | 2 => ((waiting [junkEvent 1]).taken (junkEvent 1) []).emitted
      (unknownPath (junkEvent 1) 0#16 0#16 false)
  | _ + 3 => (((waiting [junkEvent 1]).taken (junkEvent 1) []).emitted
      (unknownPath (junkEvent 1) 0#16 0#16 false)).armDone

def demoOp : Nat → Instr
  | 0 => .dequeue
  | 1 => .decode
  | 2 => .armOk
  | _ + 3 => .timeout

theorem demo_next : ∀ n, exec (demoOp n) (demoState n) = .next (demoState (n + 1))
  | 0 => rfl
  | 1 => rfl
  | 2 => rfl
  | _ + 3 => rfl

def demoRun : Run := ⟨demoState, demoOp, demo_next⟩

/-- In the end no step but TIMEOUT is enabled for the controller, so the run is fair. -/
theorem demo_fair : demoRun.Fair := by
  intro n i hi h
  obtain ⟨t, ht⟩ : Enabled i (demoState (n + 3)) := h (n + 3) (by omega)
  have hw : (demoState (n + 3)).fsm = .wait := rfl
  have hq : (demoState (n + 3)).queue = [] := rfl
  clear h
  generalize demoState (n + 3) = s at ht hw hq
  cases exec_next ht <;> first
    | (cases hi; done)
    | (cases i <;> simp_all [combinational, controllerStep])
    | simp_all

theorem waiting_inv : (waiting [junkEvent 1]).Inv where
  config := by decide
  retry := by decide
  storage := ⟨by decide, by intro e h; simp [waiting] at h; subst h; decide⟩
  curHeld := by decide
  curOk := by intro e h; cases h
  lastClear := fun _ => ⟨rfl, rfl⟩
  bitRange := by decide
  idxRange := by decide
  outLegal := by intro w h; cases h

/-- The run with its first state for the clause of WAIT, and its tails for those of DECODE and ARM. -/
theorem witness_FairRunsMakeProgress :
    demoRun.Fair ∧
    ((demoRun.state 0).Inv ∧ (demoRun.state 0).fsm = .wait ∧ (demoRun.state 0).queue ≠ []) ∧
    ((demoRun.state 1).Inv ∧ (demoRun.state 1).fsm = .decode) ∧
    ((demoRun.state 2).Inv ∧ (demoRun.state 2).fsm = .arm) := by
  refine ⟨demo_fair, ⟨waiting_inv, rfl, by decide⟩, ⟨?_, rfl⟩, ⟨?_, rfl⟩⟩
  · exact
      { config := by decide
        retry := by decide
        storage := ⟨by decide, by intro e h; cases h⟩
        curHeld := by decide
        curOk := by intro e h; cases h; decide
        lastClear := fun _ => ⟨rfl, rfl⟩
        bitRange := by decide
        idxRange := by decide
        outLegal := by intro w h; cases h }
  · exact
      { config := by decide
        retry := by decide
        storage := ⟨by decide, by intro e h; cases h⟩
        curHeld := by decide
        curOk := by intro e h; cases h
        lastClear := fun _ => ⟨rfl, rfl⟩
        bitRange := by decide
        idxRange := by decide
        outLegal := by
          intro w h
          have : w = 0x0001000000000007#64 := by
            rw [List.mem_singleton.1 h]; decide
          subst this
          exact ⟨_, rfl⟩ }

theorem witness_TimeoutChangesNothing :
    ((waiting []).fsm = .wait ∧ (waiting []).queue = []) ∧
    ¬ ((waiting [e1]).fsm = .wait ∧ (waiting [e1]).queue = []) := by decide

theorem witness_DecodeAppliesDispatch :
    Enabled .decode (decoding e1) ∧ (decoding e1).Decoding e1 ∧
    (decoding (junkEvent 64)).Decoding (junkEvent 64) ∧ (junkEvent 64).count ≠ 34 :=
  ⟨⟨_, rfl⟩, decoding_e1, decoding_junk.2, by decide⟩

/-- In FAULT (POST goes on where it is allowed), and into FAULT. -/
theorem witness_FaultIsStickyAndEnteredOnlyByArmFail :
    (∃ t, exec (.post repeatEvent) { disarmedPosts with fsm := .fault } = .next t) ∧
    ∃ t, exec .armFail State.reset = .next t ∧ State.reset.fsm ≠ .fault ∧ t.fsm = .fault :=
  ⟨⟨_, rfl⟩, ⟨_, rfl, by decide, rfl⟩⟩

theorem witness_OutcomesFollowTheQueueOrder :
    configOk (waiting [e1, repeatEvent]).cfg = true ∧ (waiting [e1, repeatEvent]).fsm = .wait ∧
    ∀ e, e ∈ (waiting [e1, repeatEvent]).queue → eventOk (waiting [e1, repeatEvent]).cfg e = true := by
  decide

theorem witness_PostAndDecodeCommute :
    (decoding e1).Decoding e1 ∧ ({ decoding e1 with armed := true } : State).Decoding e1 ∧
    eventOk (decoding e1).cfg repeatEvent = true := ⟨decoding_e1, ⟨rfl, rfl, by decide⟩, by decide⟩

theorem witness_StatusOutputsCopyTheState :
    (waiting [e1, repeatEvent]).queue.length < 65536 := by decide

theorem witness_StepRunsTheDecodedOperation :
    configOk (scripted .armOk).cfg = true ∧ (scripted .armOk).stim = [encode .armOk] ∧
    decodeXact (encode .armOk) = .ok .armOk ∧
    decodeXact ⟨.rst, [0]⟩ = .error (.noSuchSelector .rst) ∧ State.reset.stim = [] := by decide

theorem witness_InvariantsHoldAtReset : configOk Config.specDefault = true := by decide

theorem witness_EveryStepKeepsTheInvariant :
    (scripted .armOk).Inv ∧ ∃ t, step (scripted .armOk) = .next t := ⟨scripted_inv _, _, rfl⟩

/-- At reset, and in the middle of a reception. -/
theorem witness_EveryStepKeepsOneReception :
    (scripted .armOk).Inv ∧ (scripted .armOk).OneReception ∧
    (∃ t, step (scripted .armOk) = .next t) ∧ (decoding e1).Inv ∧ (decoding e1).OneReception :=
  ⟨scripted_inv _, fun _ => ⟨by decide, by decide⟩, ⟨_, rfl⟩, decoding_inv,
    fun _ => ⟨by decide, by decide⟩⟩

/-- At the parser's start, and 3 bits into the abort event. -/
theorem witness_EveryStepKeepsTheParserProgress :
    (scripted .armOk).Inv ∧ (decoding e1).ParserProgress ∧
    (bitsIn abortEvent 3 0xE0000000#32).ParsedBits abortEvent 3 :=
  ⟨scripted_inv _, progress_decoding, by decide, by decide, by decide,
    ⟨0x1194A328#32, by decide, by decide⟩, [.one, .one, .one], by decide, by decide, by decide⟩

theorem witness_RunsWithoutArmFailureAreSafe :
    (scripted .armOk).Inv ∧ (scripted .armOk).fsm ≠ .fault ∧
    ∀ k t, k < 1 → steps k (scripted .armOk) = .next t →
      decodeXact (nextXact t).1 ≠ .ok .armFail := by
  refine ⟨scripted_inv _, by decide, ?_⟩
  intro k t hk h
  obtain rfl : k = 0 := by omega
  cases h
  decide

end Sys2Proof.Tests
end

section
/-! SUPPORT. The state after reset, field by field (R42), and the status outputs read off such a state
(R37). -/

namespace Sys2Proof.Machine

/-! ### powerOn -/

section
variable (cfg : Config)

@[simp] theorem powerOn_fsm : (State.powerOn cfg).fsm = .arm := rfl
@[simp] theorem powerOn_armed : (State.powerOn cfg).armed = false := rfl
@[simp] theorem powerOn_retryCnt : (State.powerOn cfg).retryCnt = 0 := rfl
@[simp] theorem powerOn_queue : (State.powerOn cfg).queue = [] := rfl
@[simp] theorem powerOn_curEvt : (State.powerOn cfg).curEvt = none := rfl
@[simp] theorem powerOn_lastAddr : (State.powerOn cfg).lastAddr = 0#16 := rfl
@[simp] theorem powerOn_lastCmd : (State.powerOn cfg).lastCmd = 0#16 := rfl
@[simp] theorem powerOn_lastValid : (State.powerOn cfg).lastValid = false := rfl
@[simp] theorem powerOn_sr : (State.powerOn cfg).sr = 0#32 := rfl
@[simp] theorem powerOn_bitCnt : (State.powerOn cfg).bitCnt = 0#6 := rfl
@[simp] theorem powerOn_idx : (State.powerOn cfg).idx = 0#16 := rfl
@[simp] theorem powerOn_cfg : (State.powerOn cfg).cfg = cfg := rfl

end

theorem reset_eq_powerOn : State.reset = State.powerOn State.reset.cfg := rfl

/-! ### The status outputs of a state in ARM with nothing queued -/

section
variable {s : State}

theorem stState_of_arm (h : s.fsm = .arm) : stState s = 0b000#3 := by
  rw [stState, h, fsmCode]

theorem stFault_of_arm (h : s.fsm = .arm) : stFault s = false := by
  rw [stFault, h]
  decide

theorem stQlen_of_queue_nil (h : s.queue = []) : stQlen s = 0#16 := by
  simp [stQlen, h]

end

/-- Settles O53: the registers by their values after reset, and each status output from the register
it copies. -/
theorem resetValuesAsListed : Obligations.ResetValuesAsListed := by
  intro cfg
  exact ⟨powerOn_fsm cfg, powerOn_armed cfg, powerOn_retryCnt cfg, powerOn_queue cfg,
    powerOn_curEvt cfg, powerOn_lastAddr cfg, powerOn_lastCmd cfg, powerOn_lastValid cfg,
    powerOn_sr cfg, powerOn_bitCnt cfg, powerOn_idx cfg, powerOn_cfg cfg,
    stState_of_arm (powerOn_fsm cfg), stFault_of_arm (powerOn_fsm cfg), powerOn_armed cfg,
    stQlen_of_queue_nil (powerOn_queue cfg), powerOn_lastValid cfg, powerOn_lastAddr cfg,
    powerOn_lastCmd cfg, reset_eq_powerOn⟩

end Sys2Proof.Machine
end

section
/-! SUPPORT. Reading STATE back from its 3-bit code (R77). -/

namespace Sys2Proof.Machine

theorem fsmCode_of_fsmOfCode {c : BitVec 3} {f : Fsm} (h : fsmOfCode c = .ok f) :
    fsmCode f = c := by
  unfold fsmOfCode at h
  split at h
  case h_1 hc | h_2 hc | h_3 hc | h_4 hc =>
    cases h
    exact BitVec.eq_of_toNat_eq hc.symm
  case h_5 => cases h

theorem fsmOfCode_eq_ok_iff (c : BitVec 3) (f : Fsm) : fsmOfCode c = .ok f ↔ fsmCode f = c := by
  constructor
  · exact fsmCode_of_fsmOfCode
  · rintro rfl
    exact fsmOfCode_fsmCode f

theorem fsmOfCode_reserved {c : BitVec 3}
    (hc : c = 0b011#3 ∨ c = 0b100#3 ∨ c = 0b101#3 ∨ c = 0b110#3) :
    fsmOfCode c = .error .reservedState := by
  rcases hc with rfl | rfl | rfl | rfl <;> rfl

/-- Settles O6: the four codes as the table gives them, the decoder as the inverse of the encoder, and
the refusal of each reserved code. -/
theorem stateCodesAsListedAndReservedRefused :
    Obligations.StateCodesAsListedAndReservedRefused :=
  ⟨rfl, rfl, rfl, rfl, fsmOfCode_eq_ok_iff, fun _ => fsmOfCode_reserved⟩

end Sys2Proof.Machine
end

section
/-! The timing classifier: each of its operations drives one answer and keeps the rest of the state
(R108), and that answer in terms of the window of R100. -/

namespace Sys2Proof.Machine

theorem drive_eq (s : State) (c : Comb) : s.drive c = { s with comb := c } := rfl

/-! ### What each operation drives -/

section
variable (w : SymW) (s : State)

theorem exec_inRange (measured nominal : Nat) :
    exec (.inRange measured nominal) s =
      .next (s.drive (.flag (inRange s.cfg measured nominal))) := rfl

theorem exec_pairMatchLead :
    exec (.pairMatchLead w) s = .next (s.drive (.flag (pairMatch s.cfg w .lead))) := rfl

theorem exec_pairMatchZero :
    exec (.pairMatchZero w) s = .next (s.drive (.flag (pairMatch s.cfg w .zero))) := rfl

theorem exec_pairMatchOne :
    exec (.pairMatchOne w) s = .next (s.drive (.flag (pairMatch s.cfg w .one))) := rfl

theorem exec_pairMatchRep :
    exec (.pairMatchRep w) s = .next (s.drive (.flag (pairMatch s.cfg w .rep))) := rfl

theorem exec_classifyBit :
    exec (.classifyBit w) s = .next (s.drive (.bitClass (classifyBit s.cfg w))) := rfl

/-- R106: CHECK_LEADING is PAIR_MATCH with REFSEL 0b00. -/
theorem exec_checkLeading : exec (.checkLeading w) s = exec (.pairMatchLead w) s := rfl

/-- R107: CHECK_REPEAT is PAIR_MATCH with REFSEL 0b11. -/
theorem exec_checkRepeat : exec (.checkRepeat w) s = exec (.pairMatchRep w) s := rfl

end

/-! ### The answers as windows -/

section
variable (cfg : Config) (w : SymW)

/-- R100: the model adds MARGIN to both sides, so that no natural subtraction is cut off at 0; on the
integers that is the window as the spec writes it. -/
theorem inRange_eq_decide_int (m n : Nat) :
    inRange cfg m n =
      decide ((n : Int) - cfg.margin < m ∧ (m : Int) < n + cfg.margin) := by
  rw [Bool.eq_iff_iff, inRange_iff, decide_eq_true_iff]
  omega

theorem pairMatch_lead :
    pairMatch cfg w .lead =
      (inRange cfg (dur0 w) cfg.tLeadH && inRange cfg (dur1 w) cfg.tLeadL) := rfl

theorem pairMatch_zero :
    pairMatch cfg w .zero =
      (inRange cfg (dur0 w) cfg.tZeroH && inRange cfg (dur1 w) cfg.tZeroL) := rfl

theorem pairMatch_one :
    pairMatch cfg w .one =
      (inRange cfg (dur0 w) cfg.tOneH && inRange cfg (dur1 w) cfg.tOneL) := rfl

theorem pairMatch_rep :
    pairMatch cfg w .rep =
      (inRange cfg (dur0 w) cfg.tRepH && inRange cfg (dur1 w) cfg.tRepL) := rfl

/-- R104: the windows of ONE are tried before those of ZERO. -/
theorem classifyBit_eq_windows :
    classifyBit cfg w =
      if inRange cfg (dur0 w) cfg.tOneH && inRange cfg (dur1 w) cfg.tOneL then .one
      else if inRange cfg (dur0 w) cfg.tZeroH && inRange cfg (dur1 w) cfg.tZeroL then .zero
      else .invalid := by
  rw [classifyBit, pairMatch_one, pairMatch_zero]

end

/-- Settles O12: IN_RANGE drives the flag of the model's comparison, which is the window on the
integers. -/
theorem inRangeIsTheOpenWindow : Obligations.InRangeIsTheOpenWindow := by
  intro measured nominal s
  rw [exec_inRange, inRange_eq_decide_int, drive_eq]

/-- Settles O14: the four selectors, each from the pair it names, then the two checks as the selectors
they stand for. -/
theorem pairMatchNeedsBothHalves : Obligations.PairMatchNeedsBothHalves := by
  intro w s
  rw [exec_checkLeading, exec_checkRepeat]
  refine ⟨?lead, ?zero, ?one, ?rep, ?lead, ?rep⟩
  case lead => rw [exec_pairMatchLead, pairMatch_lead, drive_eq]
  case zero => rw [exec_pairMatchZero, pairMatch_zero, drive_eq]
  case one => rw [exec_pairMatchOne, pairMatch_one, drive_eq]
  case rep => rw [exec_pairMatchRep, pairMatch_rep, drive_eq]

/-- Settles O15: CLASSIFY_BIT drives the class that the windows of ONE, then those of ZERO, give. -/
theorem classifyBitAnswersOneZeroOrInvalid :
    Obligations.ClassifyBitAnswersOneZeroOrInvalid := by
  intro w s
  rw [exec_classifyBit, classifyBit_eq_windows, drive_eq]

end Sys2Proof.Machine
end

section
/-! PARSE (R130 to R135): what it answers for an event whose 32 data symbols have the classes `cs`, and
the bits of the two assembled halves. -/

namespace Sys2Proof.Machine

/-! ### What PARSE drives -/

theorem withEvent_some {s : State} {e : Event} {p : Nat → Bool} (hok : eventOk s.cfg e = true)
    (hp : p e.count = true) (c : Comb) : withEvent s e p (some c) = .next (s.drive c) := by
  rw [withEvent, if_pos hok, if_pos hp]

theorem exec_parse_of_some {s : State} {e : Event} {r : ParseResult} (hok : eventOk s.cfg e = true)
    (hc : e.count = normalLen) (hr : parse s.cfg e = some r) :
    exec (.parse e) s = .next (s.drive (.parsed r)) := by
  have hcount : (e.count == normalLen) = true := by simpa using hc
  rw [exec, execParse, hr]
  exact withEvent_some hok hcount (.parsed r)

/-- R132: the leading code passed, so the data symbols decide. -/
theorem parse_of_leading {cfg : Config} {e : Event} {w : SymW} {cs : List BitClass}
    (hw : symRead e 0 = some w) (hlead : checkLeading cfg w = true)
    (hcs : classifyFrom cfg e 1 dataBits = some cs) : parse cfg e = some (parseBits cs) := by
  simp only [parse, hw, hlead, hcs, if_true, Option.map_some]

/-! ### The classes of the data symbols -/

/-- The 32 data symbols of a well-formed count-34 event all have a class (R132). -/
theorem classifyFrom_dataBits {cfg : Config} {e : Event} (hok : eventOk cfg e = true)
    (hc : e.count = normalLen) : ∃ cs, classifyFrom cfg e 1 dataBits = some cs := by
  obtain ⟨-, hl⟩ := eventOk_iff.1 hok
  exact classifyFrom_of_le hl (by rw [hc]; decide)

theorem getElem?_dataClasses {cfg : Config} {e : Event} {cs : List BitClass}
    (hcs : classifyFrom cfg e 1 dataBits = some cs) {k : Nat} (hk : k < dataBits) :
    cs[k]? = dataBit cfg e k :=
  classifyFrom_getElem hcs k hk

theorem invalid_mem_dataClasses_iff {cfg : Config} {e : Event} {cs : List BitClass}
    (hcs : classifyFrom cfg e 1 dataBits = some cs) :
    .invalid ∈ cs ↔ ∃ k, k < dataBits ∧ dataBit cfg e k = some .invalid := by
  rw [List.mem_iff_getElem?]
  constructor
  · rintro ⟨k, hk⟩
    obtain ⟨hlt, -⟩ := List.getElem?_eq_some_iff.1 hk
    rw [classifyFrom_length hcs] at hlt
    exact ⟨k, hlt, getElem?_dataClasses hcs hlt ▸ hk⟩
  · rintro ⟨k, hlt, hk⟩
    exact ⟨k, (getElem?_dataClasses hcs hlt).trans hk⟩

theorem parseBits_of_valid {cs : List BitClass} (h : .invalid ∉ cs) :
    parseBits cs =
      .ok (BitVec.ofNat 16 (assemble (cs.take 16))) (BitVec.ofNat 16 (assemble (cs.drop 16))) := by
  simp [parseBits, h]

/-! ### Bit assembly (R134, R135) -/

/-- Bit `i` of an assembled half is the class of its symbol `i`. -/
theorem getLsbD_ofNat_assemble (cs : List BitClass) {i : Nat} (hi : i < 16) :
    (BitVec.ofNat 16 (assemble cs)).getLsbD i = decide (cs[i]? = some .one) := by
  rw [BitVec.getLsbD_ofNat, assemble_testBit, decide_eq_true hi, Bool.true_and]

/-- Settles O18: PARSE answers the two assembled halves of the classes, and bit `i` of the address and
of the command is then the class of data symbol `i` and `16 + i`. -/
theorem parseAssemblesLeastSignificantBitFirst :
    Obligations.ParseAssemblesLeastSignificantBitFirst := by
  rintro e s hok hc ⟨w, hw, hlead⟩ hvalid
  obtain ⟨cs, hcs⟩ := classifyFrom_dataBits hok hc
  have hnot : .invalid ∉ cs := by
    rw [invalid_mem_dataClasses_iff hcs]
    rintro ⟨k, hk, hbad⟩
    exact hvalid k hk hbad
  have hparse := (parse_of_leading hw hlead hcs).trans (congrArg some (parseBits_of_valid hnot))
  refine ⟨_, _, exec_parse_of_some hok hc hparse, ?address, ?command⟩
  case address =>
    intro i hi
    rw [getLsbD_ofNat_assemble _ hi, List.getElem?_take_of_lt hi,
      getElem?_dataClasses hcs (by simp only [dataBits]; omega)]
  case command =>
    intro i hi
    rw [getLsbD_ofNat_assemble _ hi, List.getElem?_drop,
      getElem?_dataClasses hcs (by simp only [dataBits]; omega)]

end Sys2Proof.Machine
end

section
/-! The dispatcher (R160 to R169): the path DISPATCH takes by COUNT and the answer it drives there, the
table read of LOOKUP, and the answer of REPEATP. -/

namespace Sys2Proof.Machine

/-! ### DISPATCH by its paths -/

/-- An operation for every length takes an event as one for the lengths `p` does, where `p` allows its
length. -/
theorem withEvent_true_eq {s : State} {e : Event} {p : Nat → Bool} (hp : p e.count = true)
    (k : Option Comb) : withEvent s e (fun _ => true) k = withEvent s e p k := by
  simp only [withEvent, hp, if_true]

section
variable {s : State} {e : Event}

theorem dispatchOf_of_repeat (hc : e.count = repeatLen) :
    s.dispatchOf e = repeatPath s.cfg e s.lastAddr s.lastCmd s.lastValid := by
  have hn : e.count ≠ normalLen := by rw [hc]; decide
  rw [State.dispatchOf, dispatch, if_neg hn, if_pos hc]

theorem dispatchOf_of_other (hn : e.count ≠ normalLen) (hr : e.count ≠ repeatLen) :
    s.dispatchOf e = some (unknownPath e s.lastAddr s.lastCmd s.lastValid) := by
  rw [State.dispatchOf, dispatch, if_neg hn, if_neg hr]

theorem dispatchOf_of_parse {r : ParseResult} (hc : e.count = normalLen)
    (hr : parse s.cfg e = some r) :
    s.dispatchOf e = some (normalOutcome s.cfg r s.lastAddr s.lastCmd s.lastValid) := by
  rw [State.dispatchOf, dispatch, if_pos hc, hr, Option.map_some]

theorem exec_dispatch_of_repeat (hc : e.count = repeatLen) :
    exec (.dispatch e) s = exec (.repeatp e) s := by
  have hcount : (e.count == repeatLen) = true := beq_iff_eq.2 hc
  rw [exec, exec, execDispatch, execRepeatp, dispatchOf_of_repeat hc]
  exact withEvent_true_eq hcount _

theorem exec_dispatch_of_other (hn : e.count ≠ normalLen) (hr : e.count ≠ repeatLen) :
    exec (.dispatch e) s = exec (.unknownFramePath e) s := by
  have hp : (e.count != normalLen && e.count != repeatLen) = true := by simpa using ⟨hn, hr⟩
  rw [exec, exec, execDispatch, execUnknownFramePath, dispatchOf_of_other hn hr]
  exact withEvent_true_eq hp _

theorem exec_dispatch_of_parse {r : ParseResult} (hok : eventOk s.cfg e = true)
    (hc : e.count = normalLen) (hr : parse s.cfg e = some r) :
    exec (.dispatch e) s =
      .next (s.drive (.dispatched (normalOutcome s.cfg r s.lastAddr s.lastCmd s.lastValid))) := by
  rw [exec, execDispatch, dispatchOf_of_parse hc hr]
  exact withEvent_some hok rfl _

/-- The result that PARSE drives is that of the functional parser (R130). -/
theorem parse_of_exec_parse {r : ParseResult}
    (h : exec (.parse e) s = .next (s.drive (.parsed r))) : parse s.cfg e = some r := by
  rw [exec, execParse] at h
  obtain ⟨-, -, c, hc, hdrive⟩ := withEvent_next h
  obtain ⟨r', hr', rfl⟩ := Option.map_eq_some_iff.1 hc
  have hcomb : Comb.parsed r = Comb.parsed r' := congrArg State.comb hdrive
  rw [hr', Comb.parsed.inj hcomb]

end

/-- Settles O25: the two paths that COUNT selects beside the normal one, then the normal path by the
result of PARSE. -/
theorem dispatchSelectsThePathByCount : Obligations.DispatchSelectsThePathByCount := by
  intro e s hok
  refine ⟨exec_dispatch_of_repeat, exec_dispatch_of_other, ?normal⟩
  case normal =>
    intro hc r hparse
    refine ⟨_, _, _, _, exec_dispatch_of_parse hok hc (parse_of_exec_parse hparse), ?_⟩
    cases r with
    | ok a c => exact ⟨rfl, rfl, rfl, normalOutcome_ok_toNat s.cfg a c s.lastAddr s.lastCmd s.lastValid⟩
    | badLeading => exact ⟨rfl, rfl, rfl, plainOutcome_toNat _ (by decide) ..⟩
    | badBit => exact ⟨rfl, rfl, rfl, plainOutcome_toNat _ (by decide) ..⟩

/-! ### LOOKUP (R163) -/

section
variable {cfg : Config} {key : BitVec 8}

theorem lookup_of_mem {l : BitVec 8} (hrising : keysRising cfg.cmdTable = true)
    (hl : (key, l) ∈ cfg.cmdTable) : lookup cfg key = (true, l) := by
  obtain ⟨hfind, -⟩ := tableFind_of_mem hrising hl
  ext1
  · rw [lookup_fst, hfind, Option.isSome_some]
  · rw [lookup_snd, hfind, Option.getD_some]

theorem lookup_of_unmapped (h : ∀ l, (key, l) ∉ cfg.cmdTable) :
    lookup cfg key = (false, 0x00#8) := by
  have hmiss : (lookup cfg key).1 = false := by
    rw [lookup_fst, tableFind_eq_none h, Option.isSome_none]
  exact Prod.ext hmiss (lookup_label_of_miss hmiss)

end

theorem exec_lookup (key : BitVec 8) (s : State) :
    exec (.lookup key) s = .next (s.drive (.entry (lookup s.cfg key).1 (lookup s.cfg key).2)) := rfl

/-- Settles O27: LOOKUP drives the read of the table, which finds the one label of a mapped key and
misses every other key. -/
theorem lookupReadsTheTable : Obligations.LookupReadsTheTable := by
  intro key s hrising
  rw [exec_lookup]
  refine ⟨?mapped, ?unmapped⟩
  case mapped =>
    intro l hl
    rw [lookup_of_mem hrising hl, drive_eq]
  case unmapped =>
    intro hunmapped
    rw [lookup_of_unmapped hunmapped, drive_eq]

/-! ### REPEATP (R168, R169) -/

theorem exec_repeatp_of_symRead {s : State} {e : Event} {w : SymW} (hok : eventOk s.cfg e = true)
    (hc : e.count = repeatLen) (hw : symRead e 0 = some w) :
    exec (.repeatp e) s =
      .next (s.drive (.dispatched
        (repeatOutcome s.cfg (checkRepeat s.cfg w) s.lastAddr s.lastCmd s.lastValid))) := by
  have hcount : (e.count == repeatLen) = true := beq_iff_eq.2 hc
  rw [exec, execRepeatp, repeatPath, hw]
  exact withEvent_some hok hcount _

/-- The repeat path answers a word beside the last pair it was given. -/
theorem repeatOutcome_eq (cfg : Config) (b : Bool) (la lc : BitVec 16) (lv : Bool) :
    repeatOutcome cfg b la lc lv = ⟨(repeatOutcome cfg b la lc lv).word, la, lc, lv⟩ := by
  obtain ⟨haddr, hcmd, hvalid⟩ := repeatOutcome_last cfg b la lc lv
  rw [Dispatched.mk.injEq]
  exact ⟨rfl, haddr, hcmd, hvalid⟩

/-- Settles O28: REPEATP drives the repeat outcome of symbol 0, whose last pair is the one before and
whose word has the fields of each case. -/
theorem repeatPathReportsTheLastPair : Obligations.RepeatPathReportsTheLastPair := by
  intro e w s hok hc hw
  refine ⟨_, ?_, repeatOutcome_toNat s.cfg (checkRepeat s.cfg w) s.lastAddr s.lastCmd s.lastValid⟩
  rw [exec_repeatp_of_symRead hok hc hw, ← repeatOutcome_eq, drive_eq]

end Sys2Proof.Machine
end

section
/-! The control FSM (R191 to R198): for each of its steps and for POST, the next state it answers where
it is enabled, and where that is. The second is read off `exec_next`. -/

namespace Sys2Proof.Machine

/-! ### The next states -/

section
variable {s : State} {e : Event}

theorem exec_armOk_of_arm (h : s.fsm = .arm) : exec .armOk s = .next s.armDone := if_pos h

theorem exec_armFail_of_retry (h : s.fsm = .arm) (hretry : s.retryCnt < s.cfg.rearmRetries) :
    exec .armFail s = .next s.retryArm :=
  (if_pos h).trans (if_pos hretry)

theorem exec_armFail_of_no_retry (h : s.fsm = .arm) (hretry : ¬ s.retryCnt < s.cfg.rearmRetries) :
    exec .armFail s = .next s.enterFault :=
  (if_pos h).trans (if_neg hretry)

theorem exec_post_of_ok (hallowed : postAllowed s = true) (hok : eventOk s.cfg e = true) :
    exec (.post e) s = .next (s.posted e) :=
  (if_pos hallowed).trans (if_pos hok)

theorem exec_dequeue_of_cons {q : List Event} (h : s.fsm = .wait) (hq : s.queue = e :: q) :
    exec .dequeue s =
      if e.count = normalLen then .next (s.taken e q).parserInit else .next (s.taken e q) := by
  rw [exec, execDequeue, if_pos h, dequeue_eq_some.2 hq]

/-- DECODE applies what DISPATCH gives the event in hand (R197). -/
theorem exec_decode_of_dispatchOf {d : Dispatched} (h : s.Decoding e)
    (hd : s.dispatchOf e = some d) : exec .decode s = .next ((s.emitted d).afterParse e) :=
  decodeStep_eq h hd

theorem exec_dispatch_of_dispatchOf {d : Dispatched} (hok : eventOk s.cfg e = true)
    (hd : s.dispatchOf e = some d) :
    exec (.dispatch e) s = .next (s.drive (.dispatched d)) := by
  rw [exec, execDispatch, hd]
  exact withEvent_some hok rfl _

end

/-! ### POST: its guard and its queue (R55, R193) -/

theorem postAllowed_iff {s : State} :
    postAllowed s = true ↔ s.armed = true ∨ s.cfg.postWhenDisarmed = true := Bool.or_eq_true_iff

theorem enqueue_of_lt {cfg : Config} {q : List Event} (e : Event) (h : q.length < cfg.qdepth) :
    enqueue cfg q e = q ++ [e] := if_pos h

theorem enqueue_of_full {cfg : Config} {q : List Event} (e : Event) (h : ¬ q.length < cfg.qdepth) :
    enqueue cfg q e = q := if_neg h

/-! ### Where each step is enabled -/

section
variable {s : State}

theorem enabled_armOk_iff : Enabled .armOk s ↔ s.fsm = .arm := by
  constructor
  · rintro ⟨t, h⟩
    cases exec_next h with
    | armOk harm => exact harm
    | drive c hc => cases hc
    | decode hi => cases hi
  · intro harm
    exact ⟨_, exec_armOk_of_arm harm⟩

theorem enabled_armFail_iff : Enabled .armFail s ↔ s.fsm = .arm := by
  constructor
  · rintro ⟨t, h⟩
    cases exec_next h with
    | retry harm => exact harm
    | toFault harm => exact harm
    | drive c hc => cases hc
    | decode hi => cases hi
  · intro harm
    by_cases hretry : s.retryCnt < s.cfg.rearmRetries
    · exact ⟨_, exec_armFail_of_retry harm hretry⟩
    · exact ⟨_, exec_armFail_of_no_retry harm hretry⟩

theorem enabled_post_iff {e : Event} :
    Enabled (.post e) s ↔ postAllowed s = true ∧ eventOk s.cfg e = true := by
  constructor
  · rintro ⟨t, h⟩
    cases exec_next h with
    | post hallowed hok => exact ⟨hallowed, hok⟩
    | drive c hc => cases hc
    | decode hi => cases hi
  · rintro ⟨hallowed, hok⟩
    exact ⟨_, exec_post_of_ok hallowed hok⟩

theorem enabled_dequeue_iff : Enabled .dequeue s ↔ s.fsm = .wait ∧ s.queue ≠ [] := by
  constructor
  · rintro ⟨t, h⟩
    cases exec_next h with
    | takeFrame hwait hq => exact ⟨hwait, hq ▸ List.cons_ne_nil _ _⟩
    | take hwait hq => exact ⟨hwait, hq ▸ List.cons_ne_nil _ _⟩
    | drive c hc => cases hc
    | decode hi => cases hi
  · rintro ⟨hwait, hne⟩
    obtain ⟨e, q, hq⟩ := List.exists_cons_of_ne_nil hne
    rw [Enabled, exec_dequeue_of_cons hwait hq]
    split <;> exact ⟨_, rfl⟩

/-- The timer runs exactly while the controller waits with nothing queued (R196). -/
theorem timerRuns_iff : timerRuns s = true ↔ s.fsm = .wait ∧ s.queue = [] := by
  simp [timerRuns]

theorem exec_timeout_of_timerRuns (h : timerRuns s = true) : exec .timeout s = .next s := if_pos h

theorem exec_timeout_of_not_timerRuns (h : ¬ timerRuns s = true) :
    exec .timeout s = .refused .notEnabled := if_neg h

theorem fsm_of_enabled_decode (h : Enabled .decode s) : s.fsm = .decode := by
  obtain ⟨t, ht⟩ := h
  obtain ⟨e, d, hfsm, -⟩ := decodeStep_next ht
  exact hfsm

end

/-! ### The obligations -/

/-- Settles O48: DISPATCH answers for the well-formed event in hand, and DECODE applies that answer. -/
theorem decodeAppliesDispatch : Obligations.DecodeAppliesDispatch := by
  refine ⟨fun _ => fsm_of_enabled_decode, ?applies⟩
  case applies =>
    intro s e hdec
    have ⟨_, _, hok⟩ := hdec
    obtain ⟨d, hd⟩ := dispatch_of_ok hok s.lastAddr s.lastCmd s.lastValid
    exact ⟨_, d.word, d.lastAddr, d.lastCmd, d.lastValid, exec_dispatch_of_dispatchOf hok hd,
      exec_decode_of_dispatchOf hdec hd, decoded_emitted s e d, sameParser_emitted s d⟩

/-- Settles O41: ARM_OK is enabled in ARM alone and leaves `State.armDone`. -/
theorem armOkArmsAndWaits : Obligations.ArmOkArmsAndWaits :=
  fun _ => ⟨enabled_armOk_iff, exec_armOk_of_arm⟩

/-- Settles O42: ARM_FAIL is enabled in ARM alone, and RETRY_CNT chooses between its two next states. -/
theorem armFailRetriesThenFaults : Obligations.ArmFailRetriesThenFaults :=
  fun _ => ⟨enabled_armFail_iff, exec_armFail_of_retry, exec_armFail_of_no_retry⟩

/-- Settles O44: POST is enabled by its guard and the event's form, and the room in QUEUE decides
whether the event is kept. -/
theorem postQueuesAtTheTailOrDrops : Obligations.PostQueuesAtTheTailOrDrops := by
  intro e s
  refine ⟨?enabled, fun hmay hok => ⟨?queues, ?drops⟩⟩
  case enabled => rw [enabled_post_iff, postAllowed_iff, eventOk_iff]
  case queues =>
    intro hroom
    rw [exec_post_of_ok (postAllowed_iff.2 hmay) hok, State.posted, enqueue_of_lt e hroom]
  case drops =>
    intro hfull
    rw [exec_post_of_ok (postAllowed_iff.2 hmay) hok, State.posted, enqueue_of_full e hfull]

/-- Settles O46: DEQUEUE is enabled in WAIT with an event queued, takes the head, and starts the parser
for count 34 alone. -/
theorem dequeueTakesTheHead : Obligations.DequeueTakesTheHead := by
  intro s
  refine ⟨enabled_dequeue_iff, fun e q hwait hq => ⟨?frame, ?other⟩⟩
  case frame =>
    intro hc
    exact (exec_dequeue_of_cons hwait hq).trans (if_pos hc)
  case other =>
    intro hc
    exact (exec_dequeue_of_cons hwait hq).trans (if_neg hc)

/-- Settles O47: TIMEOUT answers the state it was given while the timer runs, and is refused else. -/
theorem timeoutChangesNothing : Obligations.TimeoutChangesNothing :=
  fun _ => ⟨fun hwait hq => exec_timeout_of_timerRuns (timerRuns_iff.2 ⟨hwait, hq⟩),
    fun h => exec_timeout_of_not_timerRuns (mt timerRuns_iff.1 h)⟩

end Sys2Proof.Machine
end

section
/-! RESET (R260): the next state it answers, in any state. -/

namespace Sys2Proof.Machine

theorem exec_reset (s : State) : exec .reset s = .next s.resetRegs := rfl

/-- Settles O52: RESET has no enabling condition, and what it writes is `State.resetRegs`. -/
theorem resetWritesEveryRegister : Obligations.ResetWritesEveryRegister := by
  intro s
  rw [exec_reset, State.resetRegs]

end Sys2Proof.Machine
end

section
/-! The decoder against the formats: it reads back what the encoder writes (R70, R73, R76, R80, R81),
and which outcome words, event words and selectors it takes (R51, R75, R77). -/

namespace Sys2Proof.Machine

/-! ### Reading back what the encoder writes -/

theorem decodeRefSel_of_pick {p : Port} (pick : Nat → SymW → Option Instr) (sel : Nat) (w : SymW)
    {i : Instr} (h : pick sel w = some i) : decodeRefSel p pick [sel, w.toNat] = .ok i := by
  simp only [decodeRefSel, symWord?_toNat, h]

theorem decodeWindow_of_lt {m : Nat} (n : Nat) (h : m < 32768) :
    decodeWindow [m, n] = .ok (.inRange m n) := if_pos h

theorem decodeTable_toNat (key : BitVec 8) : decodeTable [key.toNat] = .ok (.lookup key) := by
  rw [decodeTable, if_pos key.isLt, BitVec.ofNat_toNat, BitVec.setWidth_eq]

theorem decodeEvent_map {p : Port} {e : Event} (f : Event → Instr) (h : e.fitsHeader = true) :
    (decodeEvent p (encodeEvent e)).map f = .ok (f e) := by
  rw [decodeEvent_encodeEvent p h]
  rfl

theorem decodeOut_toNat (w : OutW) : decodeOut [w.toNat] = decodeOutcome w := by
  rw [decodeOut, if_pos w.isLt, BitVec.ofNat_toNat, BitVec.setWidth_eq]

section
variable {e : Event}

theorem pickPath_normal (hc : e.count = normalLen) : pickPath e = .parse e := if_pos hc

theorem pickPath_repeat (hc : e.count = repeatLen) : pickPath e = .repeatp e := by
  have hn : e.count ≠ normalLen := by rw [hc]; decide
  rw [pickPath, if_neg hn, if_pos hc]

theorem pickPath_other (hn : e.count ≠ normalLen) (hr : e.count ≠ repeatLen) :
    pickPath e = .unknownFramePath e := by
  rw [pickPath, if_neg hn, if_neg hr]

/-- The path port reads an event back and selects the path of its count. -/
theorem decodeXact_framePath {i : Instr} (hfits : e.fitsHeader = true) (hpath : pickPath e = i) :
    decodeXact ⟨.framePath, encodeEvent e⟩ = .ok i :=
  hpath ▸ decodeEvent_map pickPath hfits

end

/-- Settles O1: port by port, each unit's decoder reads back the words the encoder writes for it. -/
theorem decodeOfEncodeIsIdentity : Obligations.DecodeOfEncodeIsIdentity := by
  intro i hwf
  cases i with
  | symbol w => simp only [encode, decodeXact, decodeSymbolIn, symWord?_toNat]
  | post e => exact decodeEvent_map .post hwf
  | inRange m n => exact decodeWindow_of_lt n (of_decide_eq_true hwf)
  | pairMatchLead w => exact decodeRefSel_of_pick pickPair 0 w rfl
  | pairMatchZero w => exact decodeRefSel_of_pick pickPair 1 w rfl
  | pairMatchOne w => exact decodeRefSel_of_pick pickPair 2 w rfl
  | pairMatchRep w => exact decodeRefSel_of_pick pickPair 3 w rfl
  | classifyBit w => exact decodeRefSel_of_pick pickClassify 2 w rfl
  | checkLeading w => exact decodeRefSel_of_pick pickLeading 0 w rfl
  | checkRepeat w => exact decodeRefSel_of_pick pickRepeat 3 w rfl
  | dispatch e => exact decodeEvent_map .dispatch hwf
  | parse e =>
    simp only [Instr.wf, Bool.and_eq_true, beq_iff_eq] at hwf
    exact decodeXact_framePath hwf.1 (pickPath_normal hwf.2)
  | repeatp e =>
    simp only [Instr.wf, Bool.and_eq_true, beq_iff_eq] at hwf
    exact decodeXact_framePath hwf.1 (pickPath_repeat hwf.2)
  | unknownFramePath e =>
    simp only [Instr.wf, Bool.and_eq_true, bne_iff_ne] at hwf
    obtain ⟨⟨hfits, hn⟩, hr⟩ := hwf
    exact decodeXact_framePath hfits (pickPath_other hn hr)
  | lookup key => exact decodeTable_toNat key
  | armOk => rfl
  | armFail => rfl
  | dequeue => rfl
  | timeout => rfl
  | decode => rfl
  | pstep => rfl
  | reset => rfl
  | outKey f => exact (decodeOut_toNat _).trans (decodeOutcome_mkOutcome hwf)
  | outUnmappedKey f => exact (decodeOut_toNat _).trans (decodeOutcome_mkOutcome hwf)
  | outBadLeading f => exact (decodeOut_toNat _).trans (decodeOutcome_mkOutcome hwf)
  | outBadBit f => exact (decodeOut_toNat _).trans (decodeOutcome_mkOutcome hwf)
  | outRepeat f => exact (decodeOut_toNat _).trans (decodeOutcome_mkOutcome hwf)
  | outNotRepeat f => exact (decodeOut_toNat _).trans (decodeOutcome_mkOutcome hwf)
  | outUnknownFrame f => exact (decodeOut_toNat _).trans (decodeOutcome_mkOutcome hwf)

/-- Settles O2: each conjunct runs the decoder on the words of one interface. -/
theorem writtenWordsDecode : Obligations.WrittenWordsDecode := by
  refine ⟨?symbol, ?event, ?header, ?selector, ?path, ?key, ?armOk, ?armFail, ?dequeue, ?timeout,
    ?decode, ?fault, ?reset, ?outcome⟩ <;> rfl

/-! ### Outcome words (R75) -/

/-- The refusals of R75 on the fields of a word. -/
theorem decodeOutcome_error_iff {w : OutW} :
    (∃ r, decodeOutcome w = .error r) ↔
      (outCode w).toNat = 0 ∨ 8 ≤ (outCode w).toNat ∨ outReserved w ≠ 0#2 ∨
        ((outFields w).mapped = false ∧ (outFields w).label ≠ 0#8) ∨
        ((outFields w).lv = false ∧ ((outFields w).addr ≠ 0#16 ∨ (outFields w).cmd ≠ 0#16)) := by
  simp only [decodeOutcome]
  by_cases hres : outReserved w ≠ 0#2
  · simp [hres]
  by_cases hlabel : (outFields w).mapped = false ∧ (outFields w).label ≠ 0#8
  · simp [hres, hlabel]
  by_cases hpair :
      (outFields w).lv = false ∧ ((outFields w).addr ≠ 0#16 ∨ (outFields w).cmd ≠ 0#16)
  · simp [hres, hlabel, hpair]
  simp only [hres, hlabel, hpair, if_false, or_false]
  generalize (outCode w).toNat = code
  split
  case h_8 => grind
  all_goals simp

theorem outCode_toNat (w : OutW) : (outCode w).toNat = w.toNat % 16 := by
  rw [outCode, BitVec.extractLsb'_toNat]
  rfl

theorem getLsbD_eq_false_iff {w : OutW} {i : Nat} :
    w.getLsbD i = false ↔ w.toNat / 2 ^ i % 2 = 0 := by
  rw [BitVec.getLsbD, Nat.testBit_eq_decide_div_mod_eq, decide_eq_false_iff_not]
  omega

theorem extractLsb'_ne_zero_iff {w : OutW} {start len : Nat} :
    w.extractLsb' start len ≠ 0#len ↔ w.toNat / 2 ^ start % 2 ^ len ≠ 0 := by
  rw [ne_eq, ← BitVec.toNat_inj, BitVec.extractLsb'_toNat, Nat.shiftRight_eq_div_pow,
    BitVec.toNat_ofNat, Nat.zero_mod]

/-- Settles O3: the refusals by the fields of the word, each field then read off its bits. -/
theorem reservedOutcomeWordsRefused : Obligations.ReservedOutcomeWordsRefused := by
  intro w hw
  have hdec : decodeXact ⟨.out, [w]⟩ = decodeOutcome (BitVec.ofNat 64 w) := if_pos hw
  have hnat : (BitVec.ofNat 64 w).toNat = w := Nat.mod_eq_of_lt hw
  rw [hdec, decodeOutcome_error_iff, outCode_toNat]
  simp only [outReserved, outFields, extractLsb'_ne_zero_iff, getLsbD_eq_false_iff, hnat]
  rfl

/-! ### Event words (R51, R76) -/

theorem decodeEvent_eq_ok_iff {p : Port} {h : Nat} {ws : List Nat} {e : Event} :
    decodeEvent p (h :: ws) = .ok e ↔
      h < 65536 ∧ (∀ w, w ∈ ws → w < 4294967296) ∧ ws.length = h ∧
        e = ⟨h, ws.map (BitVec.ofNat 32)⟩ := by
  simp only [decodeEvent]
  by_cases hwide : 4294967296 ≤ h
  · have hover : ¬ h < 65536 := by omega
    simp [hwide, hover]
  by_cases hres : 65536 ≤ h
  · simp [hwide, hres, Nat.not_lt_of_le hres]
  simp only [hwide, hres, if_false, Nat.lt_of_not_le hres, true_and]
  cases hs : symWords? ws with
  | none =>
    have hno : ¬ ∀ w, w ∈ ws → w < 4294967296 := fun hall =>
      absurd (symWords?_eq_some.2 ⟨hall, rfl⟩) (by simp [hs])
    simp [hno]
  | some ss =>
    obtain ⟨hall, rfl⟩ := symWords?_eq_some.1 hs
    by_cases hlen : ws.length = h
    · have heq : .ok (⟨h, ws.map (BitVec.ofNat 32)⟩ : Event) = (.ok e : Except DecodeError Event) ↔
          e = ⟨h, ws.map (BitVec.ofNat 32)⟩ := by
        rw [Except.ok.injEq, eq_comm]
      simp only [List.length_map, hlen, if_true, heq, true_and]
      exact (and_iff_right hall).symm
    · simp [hlen]

/-- Settles O4: the event port maps what the event decoder answers. -/
theorem eventWordsDecodeByHeader : Obligations.EventWordsDecodeByHeader := by
  intro h ws e
  have hdec : decodeXact ⟨.fePost, h :: ws⟩ = .ok (.post e) ↔
      decodeEvent .fePost (h :: ws) = .ok e := by
    simp only [decodeXact]
    cases decodeEvent .fePost (h :: ws) <;> simp [Except.map]
  rw [hdec, decodeEvent_eq_ok_iff]
  rfl

/-! ### CTLSEL (R81) -/

/-- The step CTLSEL selects, from what it shows of the state and the inputs. -/
def selectedStep : Fsm → (queued armResp tmo : Bool) → Option Instr
  | .arm, _, true, _ => some .armOk
  | .arm, _, false, _ => some .armFail
  | .wait, true, _, _ => some .dequeue
  | .wait, false, _, true => some .timeout
  | .wait, false, _, false => none
  | .decode, _, _, _ => some .decode
  | .fault, _, _, _ => none

theorem decodeControl_ctlsel (f : Fsm) (queued armResp tmo : Bool) :
    (decodeControl [(BitVec.ofBool tmo ++ BitVec.ofBool queued ++ BitVec.ofBool armResp
      ++ fsmCode f).toNat]).toOption = selectedStep f queued armResp tmo := by
  revert queued armResp tmo
  cases f <;> decide

theorem decodeXact_ctlsel_iff {s : State} {armResp tmo : Bool} {i : Instr} :
    decodeXact ⟨.controller, [(ctlsel s armResp tmo).toNat]⟩ = .ok i ↔
      selectedStep s.fsm (!s.queue.isEmpty) armResp tmo = some i := by
  rw [← decodeControl_ctlsel]
  simp only [decodeXact, ctlsel]
  cases decodeControl _ <;> simp [Except.toOption]

/-- Settles O5: the selected step by STATE, and in WAIT by whether an event is queued. -/
theorem ctlselSelectsTheEnabledStep : Obligations.CtlselSelectsTheEnabledStep := by
  intro s armResp tmo i
  rw [decodeXact_ctlsel_iff]
  cases s.fsm with
  | arm => cases armResp <;> simp [selectedStep, eq_comm]
  | wait =>
    cases s.queue with
    | nil => cases tmo <;> simp [selectedStep, eq_comm]
    | cons e q => simp [selectedStep, eq_comm]
  | decode => simp [selectedStep, eq_comm]
  | fault => simp [selectedStep]

end Sys2Proof.Machine
end

section
/-! What every step keeps: the configuration (R262), the invariant of reachable states (R23 to R32,
R51, R75) and the count of receptions under way (R191, R194). Each is proved of one operation, over the
cases of `Effect`, and carried to a step by `step_effect`. -/

namespace Sys2Proof.Machine

/-! ### From an operation to a step -/

/-- A step is the effect of one operation, once a transaction has been taken from the script. -/
theorem step_effect {s t : State} (h : step s = .next t) :
    ∃ stim draws i, Effect { s with stim := stim, draws := draws } i t := by
  obtain ⟨i, -, -, hi⟩ := step_next h
  exact ⟨_, _, i, nextXact_same s ▸ exec_next hi⟩

section
variable {s u : State} {x : Xact} (hcfg : configOk s.cfg = true) (hnext : nextXact s = (x, u))
include hcfg hnext

theorem step_of_ok {i : Instr} (hx : decodeXact x = .ok i) : step s = exec i u := by
  simp only [step, hcfg, hnext, hx, if_true]

theorem step_of_error {r : DecodeError} (hx : decodeXact x = .error r) :
    step s = .refused (.undecodable r) := by
  simp only [step, hcfg, hnext, hx, if_true]

end

theorem nextXact_nil {s : State} (h : s.stim = []) :
    nextXact s = (Config.freeXact s.draws, { s with draws := s.draws + 1 }) := by
  simp only [nextXact, h]

/-- Settles O55: the transaction taken is the listed one, or the free one once the script is empty. -/
theorem stepRunsTheDecodedOperation : Obligations.StepRunsTheDecodedOperation := by
  intro s hcfg
  refine ⟨?listed, ?refused, ?free⟩
  case listed => exact fun x rest i hstim hx => step_of_ok hcfg (nextXact_cons hstim) hx
  case refused => exact fun x rest r hstim hx => step_of_error hcfg (nextXact_cons hstim) hx
  case free =>
    intro hstim
    cases hx : decodeXact (Config.freeXact s.draws) with
    | ok i => exact step_of_ok hcfg (nextXact_nil hstim) hx
    | error r => exact step_of_error hcfg (nextXact_nil hstim) hx

/-! ### The configuration (R262) -/

section
variable {s t : State}

theorem PstepEffect.cfg_eq {w : SymW} (h : PstepEffect s w t) : t.cfg = s.cfg := by
  cases h <;> rfl

theorem Effect.cfg_eq {i : Instr} (h : Effect s i t) : t.cfg = s.cfg := by
  cases h with
  | decode => simp
  | pstep _ _ _ _ _ hp => exact hp.cfg_eq
  | _ => rfl

/-- Settles O9: no operation writes the configuration, and taking a transaction does not either. -/
theorem configurationNeverChanges : Obligations.ConfigurationNeverChanges := by
  intro s t h
  obtain ⟨_, _, _, heff⟩ := step_effect h
  exact heff.cfg_eq

end

/-! ### What an unfinished parse bounds -/

theorem parseRunning_iff {s : State} :
    parseRunning s = true ↔ s.idx.toNat ≤ 32 ∧ s.bitCnt.toNat < 32 := by
  simp [parseRunning]

theorem bitCnt_succ_toNat {b : BitVec 6} (h : b.toNat < 32) : (b + 1#6).toNat = b.toNat + 1 := by
  rw [BitVec.toNat_add, BitVec.toNat_ofNat]
  omega

theorem idx_succ_toNat {x : BitVec 16} (h : x.toNat ≤ 32) : (x + 1#16).toNat = x.toNat + 1 := by
  rw [BitVec.toNat_add, BitVec.toNat_ofNat]
  omega

/-! ### The last pair that a dispatched event leaves is clear while it is not valid (R29) -/

/-- The last pair is clear unless it is valid. -/
def Dispatched.LastClear (d : Dispatched) : Prop :=
  d.lastValid = false → d.lastAddr = 0#16 ∧ d.lastCmd = 0#16

/-- The outcome of a normal frame in state `s`, for a parse result. -/
def State.normalOf (s : State) (r : ParseResult) : Dispatched :=
  normalOutcome s.cfg r s.lastAddr s.lastCmd s.lastValid

section
variable {s : State}

theorem normalOf_legal (s : State) (r : ParseResult) :
    ∃ i, decodeOutcome (s.normalOf r).word = .ok i := normalOutcome_legal ..

theorem State.Inv.normalOf_lastClear (h : s.Inv) (r : ParseResult) : (s.normalOf r).LastClear := by
  intro hv
  rcases normalOutcome_last s.cfg r s.lastAddr s.lastCmd s.lastValid with
    ⟨_, _, _, _, _, htrue⟩ | ⟨ha, hc, hsame⟩
  · exact absurd (hv.symm.trans htrue) (by decide)
  · obtain ⟨hla, hlc⟩ := h.lastClear (hsame.symm.trans hv)
    exact ⟨ha.trans hla, hc.trans hlc⟩

theorem State.Inv.dispatchOf_lastClear (h : s.Inv) {e : Event} {d : Dispatched}
    (hd : s.dispatchOf e = some d) : d.LastClear := by
  intro hv
  rcases dispatch_last hd with ⟨_, _, _, _, _, _, htrue⟩ | ⟨ha, hc, hsame⟩
  · exact absurd (hv.symm.trans htrue) (by decide)
  · obtain ⟨hla, hlc⟩ := h.lastClear (hsame.symm.trans hv)
    exact ⟨ha.trans hla, hc.trans hlc⟩

end

/-! ### Each named update keeps the invariant -/

namespace State.Inv

variable {s : State} (h : s.Inv)
include h

theorem curEvt_none (hf : s.fsm ≠ .decode) : s.curEvt = none := by
  rw [← Option.not_isSome_iff_eq_none]
  exact mt h.curHeld.1 hf

theorem withScript (stim : List Xact) (draws : Nat) :
    ({ s with stim := stim, draws := draws } : State).Inv := { h with }

theorem drive (c : Comb) : (s.drive c).Inv := { h with }

theorem posted {e : Event} (hok : eventOk s.cfg e = true) : (s.posted e).Inv where
  __ := h
  storage := by
    obtain ⟨hlen, hall⟩ := h.storage
    refine ⟨enqueue_length_le hlen, fun x hx => ?_⟩
    rcases mem_enqueue hx with hx | rfl
    · exact hall x hx
    · exact hok

theorem armDone (hf : s.fsm = .arm) : s.armDone.Inv where
  __ := h
  retry := Nat.zero_le _
  curHeld := by simp [h.curEvt_none (by simp [hf])]

theorem retryArm (hf : s.fsm = .arm) (hretry : s.retryCnt < s.cfg.rearmRetries) :
    s.retryArm.Inv where
  __ := h
  retry := hretry
  curHeld := by simp [h.curEvt_none (by simp [hf])]

theorem enterFault (hf : s.fsm = .arm) : s.enterFault.Inv where
  __ := h
  curHeld := by simp [h.curEvt_none (by simp [hf])]

theorem resetRegs : s.resetRegs.Inv where
  config := h.config
  retry := Nat.zero_le _
  storage := by simp [State.storageWf]
  curHeld := by simp
  curOk := by simp
  lastClear _ := ⟨rfl, rfl⟩
  bitRange := by simp
  idxRange := by simp
  outLegal := h.outLegal

theorem parserInit : s.parserInit.Inv where
  __ := h
  bitRange := by simp
  idxRange := by simp

theorem taken {e : Event} {q : List Event} (hq : s.queue = e :: q) : (s.taken e q).Inv where
  __ := h
  storage := by
    obtain ⟨hlen, hall⟩ := h.storage
    rw [hq] at hlen hall
    exact ⟨Nat.le_of_succ_le hlen, fun x hx => hall x (List.mem_cons_of_mem e hx)⟩
  curHeld := by simp
  curOk x hx := by
    obtain rfl : e = x := Option.some.inj hx
    exact h.storage.2 e (by simp [hq])

theorem shifted {sr : BitVec 32} {n : BitVec 6} {x : BitVec 16} (hn : n.toNat ≤ 32)
    (hx : x.toNat ≤ 33) : (s.shifted sr n x).Inv where
  __ := h
  bitRange := hn
  idxRange := hx

theorem emitted {d : Dispatched} (hlegal : ∃ i, decodeOutcome d.word = .ok i)
    (hclear : d.LastClear) : (s.emitted d).Inv where
  __ := h
  curHeld := by simp
  curOk := by simp
  lastClear := hclear
  outLegal w hw := by
    rw [emitted_out, List.mem_append, List.mem_singleton] at hw
    rcases hw with hw | rfl
    · exact h.outLegal w hw
    · exact hlegal

theorem parserFree : s.parserFree.Inv where
  __ := h
  bitRange := by
    have := (Config.freeBitCnt s.draws).isLt
    rw [parserFree_bitCnt, BitVec.toNat_ofNat]
    omega
  idxRange := by
    have := (Config.freeIdx s.draws).isLt
    rw [parserFree_idx, BitVec.toNat_ofNat]
    omega

theorem afterParse (e : Event) : (s.afterParse e).Inv := by
  unfold State.afterParse
  split
  · exact h.parserFree
  · exact h

theorem pstep {w : SymW} {t : State} (hrun : parseRunning s = true) (hp : PstepEffect s w t) :
    t.Inv := by
  obtain ⟨hidx, hbits⟩ := parseRunning_iff.1 hrun
  have hbits' : (s.bitCnt + 1#6).toNat ≤ 32 := by rw [bitCnt_succ_toNat hbits]; omega
  have hidx' : (s.idx + 1#16).toNat ≤ 33 := by rw [idx_succ_toNat hidx]; omega
  cases hp with
  | leading => exact h.shifted h.bitRange (by decide)
  | badLeading => exact h.emitted (normalOf_legal s _) (h.normalOf_lastClear _)
  | badBit => exact h.emitted (normalOf_legal s _) (h.normalOf_lastClear _)
  | bit => exact h.shifted hbits' hidx'
  | last => exact (h.shifted hbits' hidx').emitted (normalOf_legal s _) (h.normalOf_lastClear _)

/-- Every operation keeps the invariant. -/
theorem effect {i : Instr} {t : State} (heff : Effect s i t) : t.Inv := by
  cases heff with
  | drive c => exact h.drive c
  | post _ hok => exact h.posted hok
  | armOk hf => exact h.armDone hf
  | retry hf hretry => exact h.retryArm hf hretry
  | toFault hf => exact h.enterFault hf
  | takeFrame _ hq => exact (h.taken hq).parserInit
  | take _ hq => exact h.taken hq
  | timeout => exact h
  | decode _ _ _ hd =>
    exact (h.emitted (dispatch_legal hd) (h.dispatchOf_lastClear hd)).afterParse _
  | pstep _ _ _ hrun _ hp => exact h.pstep hrun hp
  | reset => exact h.resetRegs

end State.Inv

/-- Settles O57: the invariant is kept by taking a transaction, then by each case of `Effect`. -/
theorem everyStepKeepsTheInvariant : Obligations.EveryStepKeepsTheInvariant := by
  intro s t hinv h
  obtain ⟨_, _, _, heff⟩ := step_effect h
  exact (hinv.withScript _ _).effect heff

/-! ### What a micro-step writes -/

section
variable {s t : State}

theorem PstepEffect.shifts_or_finishes {w : SymW} (h : PstepEffect s w t) :
    (∃ sr n x, t = s.shifted sr n x) ∨
      ∃ r sr n x, t = (s.shifted sr n x).emitted (s.normalOf r) := by
  cases h with
  | leading => exact .inl ⟨_, _, _, rfl⟩
  | badLeading => exact .inr ⟨.badLeading, s.sr, s.bitCnt, s.idx, rfl⟩
  | badBit => exact .inr ⟨.badBit, s.sr, s.bitCnt, s.idx, rfl⟩
  | bit => exact .inl ⟨_, _, _, rfl⟩
  | last => exact .inr ⟨_, _, _, _, rfl⟩

theorem decoded_finished (s : State) (d : Dispatched) (sr : BitVec 32) (n : BitVec 6)
    (x : BitVec 16) :
    s.Decoded ((s.shifted sr n x).emitted d) d.word d.lastAddr d.lastCmd d.lastValid := by
  constructor <;> rfl

end

/-! ### Receptions under way (R191, R194) -/

theorem outstanding_eq (s : State) :
    s.outstanding = s.armed.toNat + s.queue.length + s.curEvt.isSome.toNat := rfl

section
variable {s t : State}

/-- The controller is waiting for or decoding an event. -/
def Fsm.receiving : Fsm → Bool
  | .wait | .decode => true
  | .arm | .fault => false

/-- One reception is under way while the controller is receiving, else none. -/
theorem oneReception_iff :
    s.OneReception ↔ (s.cfg.postWhenDisarmed = false → s.outstanding = s.fsm.receiving.toNat) := by
  unfold State.OneReception
  cases s.fsm <;> simp [Fsm.receiving]

/-- A post in the front end's turn replaces the armed reception by the queued event. -/
theorem State.OneReception.posted {e : Event} (h : s.OneReception) (hinv : s.Inv)
    (hallowed : postAllowed s = true) : (s.posted e).OneReception := by
  rw [oneReception_iff] at h ⊢
  intro hpost
  have hone := h hpost
  have harmed : s.armed = true := by
    rcases postAllowed_iff.1 hallowed with harmed | hdis
    · exact harmed
    · exact absurd (hpost.symm.trans hdis) (by decide)
  have hle := s.fsm.receiving.toNat_le
  have hcap : 2 ≤ s.cfg.qdepth := (configOk_iff.1 hinv.config).2.2.2.2.1
  rw [outstanding_eq, harmed, Bool.toNat_true] at hone
  have hroom : s.queue.length < s.cfg.qdepth := by omega
  simp only [outstanding_eq, posted_armed, posted_queue, posted_curEvt, posted_fsm,
    enqueue_of_lt e hroom, List.length_append, List.length_singleton, Bool.toNat_false]
  omega

theorem State.OneReception.taken {e : Event} {q : List Event} (h : s.OneReception) (hinv : s.Inv)
    (hf : s.fsm = .wait) (hq : s.queue = e :: q) : (s.taken e q).OneReception := by
  rw [oneReception_iff] at h ⊢
  intro hpost
  have hone := h hpost
  have hcur := hinv.curEvt_none (by simp [hf])
  simp only [outstanding_eq, hf, hq, hcur, List.length_cons] at hone
  simpa [outstanding_eq, Fsm.receiving, Nat.add_assoc] using hone

theorem State.OneReception.decoded {e : Event} {o : OutW} {a c : BitVec 16} {v : Bool}
    (h : s.OneReception) (hf : s.fsm = .decode) (he : s.curEvt = some e)
    (hd : s.Decoded t o a c v) : t.OneReception := by
  rw [oneReception_iff] at h ⊢
  intro hpost
  have hone := h (hd.cfg ▸ hpost)
  simp only [outstanding_eq, hf, he, Fsm.receiving, Option.isSome_some, Bool.toNat_true] at hone
  rw [outstanding_eq, hd.armed, hd.queue, hd.curEvt, hd.fsm]
  simp only [Fsm.receiving, Option.isSome_none, Bool.toNat_false]
  omega

theorem State.OneReception.effect {i : Instr} (h : s.OneReception) (hinv : s.Inv)
    (heff : Effect s i t) : t.OneReception := by
  cases heff with
  | drive c => exact h
  | post hallowed => exact h.posted hinv hallowed
  | armOk hf =>
    rw [oneReception_iff] at h ⊢
    intro hpost
    have hzero := h hpost
    simp only [outstanding_eq, hf, Fsm.receiving, Bool.toNat_false] at hzero
    simp only [outstanding_eq, armDone_armed, armDone_queue, armDone_curEvt, armDone_fsm,
      Fsm.receiving, Bool.toNat_true]
    omega
  | retry hf =>
    rw [oneReception_iff] at h ⊢
    simpa [outstanding_eq, hf] using h
  | toFault hf =>
    rw [oneReception_iff] at h ⊢
    simpa [outstanding_eq, hf, Fsm.receiving] using h
  | takeFrame hf hq => exact h.taken hinv hf hq
  | take hf hq => exact h.taken hinv hf hq
  | timeout => exact h
  | decode _ hf he hd => exact h.decoded hf he (decoded_emitted s _ _)
  | pstep hf he _ _ _ hp =>
    rcases hp.shifts_or_finishes with ⟨_, _, _, rfl⟩ | ⟨r, _, _, _, rfl⟩
    · exact h
    · exact h.decoded hf he (decoded_finished s (s.normalOf r) _ _ _)
  | reset =>
    rw [oneReception_iff]
    simp [outstanding_eq, Fsm.receiving]

end

/-- Settles O58: by the cases of `Effect`; the front end posts only while armed, and an event taken or
given up is the one reception under way. -/
theorem everyStepKeepsOneReception : Obligations.EveryStepKeepsOneReception := by
  intro s t hinv hone h
  obtain ⟨stim, draws, _, heff⟩ := step_effect h
  exact State.OneReception.effect (s := { s with stim := stim, draws := draws }) hone
    (hinv.withScript stim draws) heff

/-! ### After reset (R42) -/

theorem inv_powerOn {cfg : Config} (h : configOk cfg = true) : (State.powerOn cfg).Inv where
  config := h
  retry := Nat.zero_le _
  storage := by simp [State.storageWf]
  curHeld := by simp
  curOk := by simp
  lastClear _ := ⟨rfl, rfl⟩
  bitRange := by simp
  idxRange := by simp
  outLegal := by simp [State.powerOn, State.reset]

theorem oneReception_powerOn (cfg : Config) : (State.powerOn cfg).OneReception := by
  rw [oneReception_iff]
  simp [outstanding_eq, Fsm.receiving]

theorem parserProgress_of_fsm_ne {s : State} (h : s.fsm ≠ .decode) : s.ParserProgress :=
  fun _ hf => absurd hf h

/-- Settles O56: nothing is queued, held or emitted after reset, and the default configuration is well
formed. -/
theorem invariantsHoldAtReset : Obligations.InvariantsHoldAtReset :=
  ⟨reset_eq_powerOn ▸ inv_powerOn (by decide), fun cfg hcfg =>
    ⟨inv_powerOn hcfg, oneReception_powerOn cfg, parserProgress_of_fsm_ne (by simp)⟩⟩

/-! ### The status outputs (R37) -/

theorem stState_eq_iff {s : State} (f : Fsm) : stState s = fsmCode f ↔ s.fsm = f :=
  ⟨fsmCode_injective, congrArg fsmCode⟩

theorem stQlen_toNat {s : State} (h : s.queue.length < 65536) : (stQlen s).toNat = s.queue.length := by
  rw [stQlen, if_pos h, BitVec.toNat_ofNat, Nat.mod_eq_of_lt h]

/-- Settles O54: each code stands for one STATE, and every other output is its register. -/
theorem statusOutputsCopyTheState : Obligations.StatusOutputsCopyTheState :=
  fun _ => ⟨stState_eq_iff .arm, stState_eq_iff .wait, stState_eq_iff .decode, stState_eq_iff .fault,
    beq_iff_eq, rfl, stQlen_toNat, rfl, rfl, rfl⟩

end Sys2Proof.Machine
end

section
/-! The frame parser: PARSE on a frame it rejects (R131, R133), the micro-steps of PSTEP (R139), and why
a run of them ends as PARSE says (R140). -/

namespace Sys2Proof.Machine

/-! ### Rejected frames (R131, R133) -/

section
variable {cfg : Config} {e : Event} {w : SymW}

theorem parse_of_not_leading (hw : symRead e 0 = some w) (hlead : checkLeading cfg w = false) :
    parse cfg e = some .badLeading := by
  simp only [parse, hw, hlead, Bool.false_eq_true, if_false]

theorem parseBits_of_invalid {cs : List BitClass} (h : .invalid ∈ cs) : parseBits cs = .badBit :=
  if_pos (List.contains_iff_mem.2 h)

theorem parse_of_invalid (hok : eventOk cfg e = true) (hc : e.count = normalLen)
    (hw : symRead e 0 = some w) (hlead : checkLeading cfg w = true) {k : Nat} (hk : k < dataBits)
    (hbad : dataBit cfg e k = some .invalid) : parse cfg e = some .badBit := by
  obtain ⟨cs, hcs⟩ := classifyFrom_dataBits hok hc
  rw [parse_of_leading hw hlead hcs,
    parseBits_of_invalid ((invalid_mem_dataClasses_iff hcs).2 ⟨k, hk, hbad⟩)]

end

/-- Settles O19: the functional parser stops at the leading code. -/
theorem failedLeadingCodeDecidesParse : Obligations.FailedLeadingCodeDecidesParse :=
  fun _ _ _ hok hc hw hlead => exec_parse_of_some hok hc (parse_of_not_leading hw hlead)

/-- Settles O20: an Invalid class stands among the 32 that decide the result. -/
theorem anyInvalidBitRejectsTheFrame : Obligations.AnyInvalidBitRejectsTheFrame :=
  fun _ _ _ _ hok hc hw hlead hk hbad =>
    exec_parse_of_some hok hc (parse_of_invalid hok hc hw hlead hk hbad)

/-! ### The micro-steps (R139) -/

/-- SR after the bit of a symbol has entered it. -/
def State.srWith (s : State) (w : SymW) : BitVec 32 :=
  shiftIn (classifyBit s.cfg w == .one) s.sr

theorem srWith_toNat (s : State) (w : SymW) :
    (s.srWith w).toNat =
      s.sr.toNat / 2 + (if classifyBit s.cfg w = .one then 2 ^ 31 else 0) := by
  rw [State.srWith, shiftIn_toNat]
  simp only [beq_iff_eq]

/-- The address and the command are the two halves of SR. -/
theorem srHalves_toNat (x : BitVec 32) :
    (x.extractLsb' 0 16).toNat + (x.extractLsb' 16 16).toNat * 2 ^ 16 = x.toNat := by
  have := x.isLt
  simp only [BitVec.extractLsb'_toNat, Nat.shiftRight_eq_div_pow]
  omega

section
variable {s : State} {w : SymW}

theorem idx_ne_zero_of_pos (h : 1 ≤ s.idx.toNat) : s.idx ≠ 0#16 := by
  intro h0
  simp [h0] at h

theorem pstepSymbol_leading (hidx : s.idx = 0#16) (hlead : checkLeading s.cfg w = true) :
    pstepSymbol s w = .next (s.shifted s.sr s.bitCnt 1#16) := by
  rw [pstepSymbol, if_pos hidx, if_pos hlead]

theorem pstepSymbol_badLeading (hidx : s.idx = 0#16) (hlead : checkLeading s.cfg w = false) :
    pstepSymbol s w = .next (s.emitted (s.normalOf .badLeading)) := by
  rw [pstepSymbol, if_pos hidx, if_neg (by simp [hlead])]
  rfl

theorem pstepSymbol_badBit (hidx : s.idx ≠ 0#16) (hbad : classifyBit s.cfg w = .invalid) :
    pstepSymbol s w = .next (s.emitted (s.normalOf .badBit)) := by
  rw [pstepSymbol, if_neg hidx, pstepData, hbad]
  rfl

theorem pstepSymbol_bit (hidx : s.idx ≠ 0#16) (hvalid : classifyBit s.cfg w ≠ .invalid)
    (hbits : s.bitCnt.toNat + 1 ≠ dataBits) :
    pstepSymbol s w = .next (s.shifted (s.srWith w) (s.bitCnt + 1#6) (s.idx + 1#16)) := by
  rw [pstepSymbol, if_neg hidx, pstepData_eq_of_valid hvalid, if_neg hbits]
  rfl

theorem pstepSymbol_last (hidx : s.idx ≠ 0#16) (hvalid : classifyBit s.cfg w ≠ .invalid)
    (hbits : s.bitCnt.toNat + 1 = dataBits) :
    pstepSymbol s w =
      .next ((s.shifted (s.srWith w) (s.bitCnt + 1#6) (s.idx + 1#16)).emitted
        (s.normalOf (.ok ((s.srWith w).extractLsb' 0 16) ((s.srWith w).extractLsb' 16 16)))) := by
  rw [pstepSymbol, if_neg hidx, pstepData_eq_of_valid hvalid, if_pos hbits]
  rfl

end

/-- Settles O22: when a micro-step is taken, and the two that go on. -/
theorem pstepShiftsOneBitIn : Obligations.PstepShiftsOneBitIn := by
  refine ⟨?enabled, fun s e w hdec hc hw => ⟨?leading, ?bit⟩⟩
  case enabled =>
    rintro s ⟨t, ht⟩
    obtain ⟨e, w, hf, he, hc, hrun, -⟩ := execPstep_next ht
    exact ⟨hf, ⟨e, he, hc⟩, parseRunning_iff.1 hrun⟩
  case leading =>
    intro hidx hbits hlead
    have hrun : parseRunning s = true := by simp [parseRunning, hidx, hbits]
    rw [exec_pstep hdec hc hrun hw, pstepSymbol_leading hidx hlead, State.shifted]
  case bit =>
    intro hpos hidx hbits hvalid
    have hrun : parseRunning s = true := parseRunning_iff.2 ⟨hidx, by omega⟩
    have hmore : s.bitCnt.toNat + 1 ≠ dataBits := by simp only [dataBits]; omega
    refine ⟨s.srWith w, ?_, srWith_toNat s w⟩
    rw [exec_pstep hdec hc hrun hw, pstepSymbol_bit (idx_ne_zero_of_pos hpos) hvalid hmore,
      State.shifted]

theorem normalOf_rejected_toNat (s : State) :
    (s.normalOf .badLeading).word.toNat = outcomeNat 3 0 0 0 0 0 34 ∧
      (s.normalOf .badBit).word.toNat = outcomeNat 4 0 0 0 0 0 34 :=
  ⟨plainOutcome_toNat _ (by decide) .., plainOutcome_toNat _ (by decide) ..⟩

theorem decoded_emitted_now (s : State) (d : Dispatched) :
    s.Decoded (s.emitted d) d.word d.lastAddr d.lastCmd d.lastValid :=
  decoded_finished s d s.sr s.bitCnt s.idx

/-- Settles O23: where no micro-step is taken, and the three that complete the DECODE step. -/
theorem pstepFinishesTheDecode : Obligations.PstepFinishesTheDecode := by
  refine ⟨?none, fun s e w hdec hc hw => ⟨?badLeading, ?badBit, ?last⟩⟩
  case none =>
    intro s t e hno ht
    obtain ⟨e', w, hf, he, hc, -⟩ := execPstep_next ht
    rcases hno with hno | ⟨hcur, hne⟩
    · exact hno hf
    · obtain rfl : e = e' := Option.some.inj (hcur.symm.trans he)
      exact hne hc
  case badLeading =>
    intro hidx hbits hlead
    have hrun : parseRunning s = true := parseRunning_iff.2 ⟨by simp [hidx], hbits⟩
    exact ⟨_, _, (exec_pstep hdec hc hrun hw).trans (pstepSymbol_badLeading hidx hlead),
      decoded_emitted_now s _, (normalOf_rejected_toNat s).1⟩
  case badBit =>
    intro hpos hidx hbits hbad
    have hrun : parseRunning s = true := parseRunning_iff.2 ⟨hidx, hbits⟩
    exact ⟨_, _,
      (exec_pstep hdec hc hrun hw).trans (pstepSymbol_badBit (idx_ne_zero_of_pos hpos) hbad),
      decoded_emitted_now s _, (normalOf_rejected_toNat s).2⟩
  case last =>
    intro hpos hidx hbits hvalid
    have hrun : parseRunning s = true := parseRunning_iff.2 ⟨hidx, by omega⟩
    have hlast : s.bitCnt.toNat + 1 = dataBits := by rw [hbits]
    exact ⟨_, _, _, _, (exec_pstep hdec hc hrun hw).trans
        (pstepSymbol_last (idx_ne_zero_of_pos hpos) hvalid hlast),
      decoded_finished s _ _ _ _, (srHalves_toNat _).trans (srWith_toNat s w),
      normalOutcome_ok_toNat ..⟩

/-! ### SR against the classes of the symbols read (R134, R135, R139) -/

/-- A bit shifted in keeps the accepted bits in the top of SR, the first one lowest. -/
theorem shiftIn_toNat_assemble {cs : List BitClass} (c : BitClass) {sr : BitVec 32}
    (hlen : cs.length < 32) (hsr : sr.toNat = assemble cs * 2 ^ (32 - cs.length)) :
    (shiftIn (c == .one) sr).toNat = assemble (cs ++ [c]) * 2 ^ (32 - (cs.length + 1)) := by
  obtain ⟨m, hm⟩ : ∃ m, 31 = cs.length + m := Nat.exists_eq_add_of_le (by omega)
  have hhalf : sr.toNat / 2 = assemble cs * 2 ^ m := by
    rw [hsr, show 32 - cs.length = m + 1 by omega, Nat.pow_succ, ← Nat.mul_assoc,
      Nat.mul_div_cancel _ (by decide)]
  have htop : 2 ^ 31 = 2 ^ cs.length * 2 ^ m := by rw [← Nat.pow_add, ← hm]
  rw [shiftIn_toNat, hhalf, assemble_append, show 32 - (cs.length + 1) = m by omega, Nat.add_mul,
    htop]
  by_cases hone : c = .one <;> simp [hone, assemble]

/-- Once 32 bits are in, the halves of SR are the pair PARSE assembles. -/
theorem parseBits_of_sr {cs : List BitClass} {sr : BitVec 32} (hlen : cs.length = 32)
    (hvalid : .invalid ∉ cs) (hsr : sr.toNat = assemble cs) :
    parseBits cs = .ok (sr.extractLsb' 0 16) (sr.extractLsb' 16 16) := by
  have hlow : assemble (cs.take 16) < 2 ^ 16 := by
    simpa [hlen] using assemble_lt (cs.take 16)
  have hsplit : assemble cs = assemble (cs.take 16) + 2 ^ 16 * assemble (cs.drop 16) := by
    conv_lhs => rw [← List.take_append_drop 16 cs, assemble_append]
    simp [hlen]
  have haddr : BitVec.ofNat 16 (assemble (cs.take 16)) = sr.extractLsb' 0 16 := by
    apply BitVec.eq_of_toNat_eq
    rw [BitVec.extractLsb'_toNat, BitVec.toNat_ofNat, hsr, hsplit, Nat.shiftRight_eq_div_pow]
    omega
  have hcmd : BitVec.ofNat 16 (assemble (cs.drop 16)) = sr.extractLsb' 16 16 := by
    apply BitVec.eq_of_toNat_eq
    rw [BitVec.extractLsb'_toNat, BitVec.toNat_ofNat, hsr, hsplit, Nat.shiftRight_eq_div_pow]
    omega
  rw [parseBits_of_valid hvalid, haddr, hcmd]

/-! ### Progress through the frame (R139) -/

/-- The parser is at its start or some accepted bits into the event. -/
def State.ParserAt (s : State) (e : Event) : Prop :=
  (s.idx = 0#16 ∧ s.bitCnt = 0#6 ∧ s.sr = 0#32) ∨ ∃ k, s.ParsedBits e k

section
variable {s t : State} {e : Event} {w : SymW}

theorem State.ParserAt.parseRunning (h : s.ParserAt e) : parseRunning s = true := by
  rw [parseRunning_iff]
  rcases h with ⟨hidx, hbits, -⟩ | ⟨k, hk, hidx, hbits, -⟩
  · simp [hidx, hbits]
  · simp only [dataBits] at hk
    omega

/-- The classes of the accepted symbols and of one more, if it is valid too. -/
theorem State.ParsedBits.snoc {k : Nat} (h : s.ParsedBits e k)
    (hw : symRead e s.idx.toNat = some w) (hvalid : classifyBit s.cfg w ≠ .invalid) :
    ∃ cs, classifyFrom s.cfg e 1 (k + 1) = some cs ∧ .invalid ∉ cs ∧
      (s.srWith w).toNat = assemble cs * 2 ^ (32 - (k + 1)) := by
  obtain ⟨hk, hidx, -, -, cs, hcs, hnot, hsr⟩ := h
  have hlen := classifyFrom_length hcs
  refine ⟨cs ++ [classifyBit s.cfg w], classifyFrom_snoc hcs ?_, ?_, ?_⟩
  · rw [Nat.add_comm, ← hidx, hw]
  · simp [hnot, Ne.symm hvalid]
  · subst hlen
    exact shiftIn_toNat_assemble _ hk hsr

theorem State.ParsedBits.dataBit_eq {k : Nat} (h : s.ParsedBits e k)
    (hw : symRead e s.idx.toNat = some w) : dataBit s.cfg e k = some (classifyBit s.cfg w) := by
  obtain ⟨-, hidx, -⟩ := h
  rw [dataBit, Nat.add_comm, ← hidx, hw, Option.map_some]

theorem State.ParserAt.parsedBits (h : s.ParserAt e) (hidx : s.idx ≠ 0#16) :
    ∃ k, s.ParsedBits e k :=
  h.resolve_left fun hstart => hidx hstart.1

theorem State.ParserAt.start (h : s.ParserAt e) (hidx : s.idx = 0#16) :
    s.bitCnt = 0#6 ∧ s.sr = 0#32 := by
  rcases h with ⟨-, hbits, hsr⟩ | ⟨k, -, hk, -⟩
  · exact ⟨hbits, hsr⟩
  · simp [hidx] at hk

/-- A micro-step goes on one symbol further into the event, or it finishes with what PARSE answers. -/
theorem PstepEffect.of_parserAt (hok : eventOk s.cfg e = true) (hc : e.count = normalLen)
    (hat : s.ParserAt e) (hw : symRead e s.idx.toNat = some w) (h : PstepEffect s w t) :
    (∃ sr n x, t = s.shifted sr n x ∧ t.ParserAt e ∧ x.toNat = s.idx.toNat + 1) ∨
      ∃ r sr n x, parse s.cfg e = some r ∧ t = (s.shifted sr n x).emitted (s.normalOf r) := by
  have hw0 (h0 : s.idx = 0#16) : symRead e 0 = some w := by simpa [h0] using hw
  cases h with
  | leading h0 hlead =>
    obtain ⟨hbits, hsr⟩ := hat.start h0
    have hparsed : (s.shifted s.sr s.bitCnt 1#16).ParsedBits e 0 :=
      ⟨by decide, rfl, by simp [hbits], ⟨w, hw0 h0, hlead⟩, [], rfl, by simp, by simp [hsr, assemble]⟩
    exact .inl ⟨_, _, _, rfl, .inr ⟨0, hparsed⟩, by simp [h0]⟩
  | badLeading h0 hlead =>
    exact .inr ⟨.badLeading, s.sr, s.bitCnt, s.idx, parse_of_not_leading (hw0 h0) hlead, rfl⟩
  | badBit h0 hbad =>
    obtain ⟨k, hk⟩ := hat.parsedBits h0
    have hdata := (hk.dataBit_eq hw).trans (congrArg some hbad)
    obtain ⟨hlt, -, -, ⟨w0, hw0, hlead⟩, -⟩ := hk
    exact .inr ⟨.badBit, s.sr, s.bitCnt, s.idx, parse_of_invalid hok hc hw0 hlead hlt hdata, rfl⟩
  | bit h0 hvalid hmore =>
    obtain ⟨k, hk⟩ := hat.parsedBits h0
    have hbits' := hk.snoc hw hvalid
    have ⟨hidx, hbits⟩ := parseRunning_iff.1 hat.parseRunning
    obtain ⟨-, hidxk, hbitsk, hlead, -⟩ := hk
    have hnext : (s.shifted (s.srWith w) (s.bitCnt + 1#6) (s.idx + 1#16)).ParsedBits e (k + 1) :=
      ⟨by simp only [dataBits] at hmore ⊢; omega,
        by rw [shifted_idx, idx_succ_toNat hidx, hidxk],
        by rw [shifted_bitCnt, bitCnt_succ_toNat hbits, hbitsk], hlead, hbits'⟩
    exact .inl ⟨_, _, _, rfl, .inr ⟨k + 1, hnext⟩, idx_succ_toNat hidx⟩
  | last h0 hvalid hlast =>
    obtain ⟨k, hk⟩ := hat.parsedBits h0
    obtain ⟨cs, hcs, hnot, hsr⟩ := hk.snoc hw hvalid
    obtain ⟨-, -, hbitsk, ⟨w0, hw0, hlead⟩, -⟩ := hk
    have hall : k + 1 = 32 := by rw [← hbitsk, hlast]
    rw [hall] at hcs hsr
    have hparse := parse_of_leading hw0 hlead hcs
    rw [parseBits_of_sr (classifyFrom_length hcs) hnot (hsr.trans (Nat.mul_one _))] at hparse
    exact .inr ⟨_, _, _, _, hparse, rfl⟩

/-- Every operation keeps the parser in its run over the event in hand. -/
theorem State.ParserProgress.effect {i : Instr} (h : s.ParserProgress) (hinv : s.Inv)
    (heff : Effect s i t) : t.ParserProgress := by
  cases heff with
  | drive c => exact h
  | post => exact h
  | armOk => exact parserProgress_of_fsm_ne (by simp)
  | retry => exact parserProgress_of_fsm_ne (by simp)
  | toFault => exact parserProgress_of_fsm_ne (by simp)
  | takeFrame => exact fun _ _ _ _ => .inl ⟨rfl, rfl, rfl⟩
  | take _ _ hne =>
    intro e' _ he' hc
    obtain rfl := Option.some.inj he'
    exact absurd hc hne
  | timeout => exact h
  | decode => exact parserProgress_of_fsm_ne (by simp)
  | pstep hf he hc _ hw hp =>
    rcases hp.of_parserAt (hinv.curOk _ he) hc (h _ hf he hc) hw with
      ⟨_, _, _, rfl, hat, -⟩ | ⟨_, _, _, _, -, rfl⟩
    · intro e' _ he' _
      obtain rfl := Option.some.inj (he.symm.trans he')
      exact hat
    · exact parserProgress_of_fsm_ne (by simp)
  | reset => exact parserProgress_of_fsm_ne (by simp)

end

/-- Settles O59: DEQUEUE starts the parser, a micro-step moves it one symbol on or finishes, and every
other operation leaves it or the event. -/
theorem everyStepKeepsTheParserProgress : Obligations.EveryStepKeepsTheParserProgress := by
  intro s t hinv hprog h
  obtain ⟨stim, draws, _, heff⟩ := step_effect h
  exact State.ParserProgress.effect (s := { s with stim := stim, draws := draws }) hprog
    (hinv.withScript stim draws) heff

/-! ### A whole run of micro-steps (R140) -/

theorem execAll_cons {i : Instr} {s t : State} (h : exec i s = .next t) (is : List Instr) :
    execAll (i :: is) s = execAll is t := by
  simp only [execAll, h]

/-- Each micro-step reads one symbol more, so the run ends within the symbols that are left, with the
outcome of what PARSE answers. -/
theorem exists_pstep_run {e : Event} (hc : e.count = normalLen) (fuel : Nat) :
    ∀ {s : State}, s.Decoding e → s.ParserAt e → 33 - s.idx.toNat ≤ fuel →
      ∃ n r sr b x, 1 ≤ n ∧ n ≤ fuel ∧ parse s.cfg e = some r ∧
        execAll (List.replicate n .pstep) s =
          .next ((s.shifted sr b x).emitted (s.normalOf r)) := by
  induction fuel with
  | zero =>
    intro s _ hat hle
    have := parseRunning_iff.1 hat.parseRunning
    omega
  | succ fuel ih =>
    intro s hdec hat hle
    have ⟨hf, he, hok⟩ := hdec
    obtain ⟨hidx, -⟩ := parseRunning_iff.1 hat.parseRunning
    have hlt : s.idx.toNat < e.count := by
      simp only [normalLen] at hc
      omega
    obtain ⟨w, hw⟩ := symRead_of_lt hlt (eventOk_iff.1 hok).2
    obtain ⟨t, ht, heff⟩ := pstepSymbol_effect s w
    have hstep : exec .pstep s = .next t := (exec_pstep hdec hc hat.parseRunning hw).trans ht
    rcases heff.of_parserAt hok hc hat hw with ⟨sr, b, x, rfl, hat', hx⟩ | ⟨r, sr, b, x, hr, rfl⟩
    · have hle' : 33 - (s.shifted sr b x).idx.toNat ≤ fuel := by
        rw [shifted_idx, hx]
        omega
      obtain ⟨n, r, sr', b', x', h1, hn, hr, hrun⟩ :=
        ih (s := s.shifted sr b x) ⟨hf, he, hok⟩ hat' hle'
      refine ⟨n + 1, r, sr', b', x', by omega, by omega, hr, ?_⟩
      exact (execAll_cons hstep _).trans hrun
    · refine ⟨1, r, sr, b, x, by omega, by omega, hr, ?_⟩
      exact execAll_cons hstep []

/-- Settles O24: both forms emit the outcome of the same parse result; they differ in what they leave in
the parser's registers. -/
theorem pstepRunEqualsDecode : Obligations.PstepRunEqualsDecode := by
  intro s e hdec hc hsr hbits hidx
  have hat : s.ParserAt e := .inl ⟨hidx, hbits, hsr⟩
  obtain ⟨n, r, sr, b, x, h1, hn, hr, hrun⟩ := exists_pstep_run hc 33 hdec hat (Nat.sub_le ..)
  refine ⟨n, _, _, h1, hn, hrun, exec_decode_of_dispatchOf hdec (dispatchOf_of_parse hc hr), ?_⟩
  rw [afterParse_of_eq hc]
  rfl

end Sys2Proof.Machine
end

section
/-! The timing windows (R6, R100 to R105), the configurations whose bit windows overlap (R6), and what
the combinational operations read and write (R71, R108). -/

namespace Sys2Proof.Machine

/-! ### One window (R100, R101) -/

section
variable {cfg : Config} {n : Nat}

theorem inRange_eq_false_iff {m : Nat} :
    inRange cfg m n = false ↔ m + cfg.margin ≤ n ∨ n + cfg.margin ≤ m := by
  rw [← Bool.not_eq_true, inRange_iff]
  omega

theorem inRange_self (hm : 1 ≤ cfg.margin) : inRange cfg n n = true := by
  rw [inRange_iff]
  omega

/-- Below the upper bound, the naturals accepted are those from the lower bound up. -/
theorem inRange_eq_decide_le {m : Nat} (hlt : m < n + cfg.margin) :
    inRange cfg m n = decide (n + 1 - cfg.margin ≤ m) := by
  rw [Bool.eq_iff_iff, inRange_iff, decide_eq_true_iff]
  omega

/-- How many naturals a window holds that is not cut off at 0. -/
theorem length_filter_inRange (hm : 1 ≤ cfg.margin) (hn : cfg.margin - 1 ≤ n) :
    ((List.range (n + cfg.margin)).filter fun m => inRange cfg m n).length = 2 * cfg.margin - 1 := by
  have hsize : n + cfg.margin = (n + 1 - cfg.margin) + (2 * cfg.margin - 1) := by omega
  have hfilter : ((List.range (n + cfg.margin)).filter fun m => inRange cfg m n) =
      (List.range (n + cfg.margin)).filter fun m => decide (n + 1 - cfg.margin ≤ m) :=
    List.filter_congr fun m hmem => inRange_eq_decide_le (List.mem_range.1 hmem)
  have hbelow : (List.range (n + 1 - cfg.margin)).filter
      (fun m => decide (n + 1 - cfg.margin ≤ m)) = [] := by
    simp only [List.filter_eq_nil_iff, List.mem_range, decide_eq_true_iff]
    omega
  have hfrom : ∀ m ∈ (List.range (2 * cfg.margin - 1)).map (n + 1 - cfg.margin + ·),
      decide (n + 1 - cfg.margin ≤ m) = true := by
    simp only [List.forall_mem_map, decide_eq_true_iff]
    omega
  rw [hfilter, hsize, List.range_add, List.filter_append, hbelow, List.nil_append,
    List.filter_eq_self.2 hfrom, List.length_map, List.length_range]

end

/-- Settles O13: each corner by the two bounds of the window. -/
theorem windowCorners : Obligations.WindowCorners := by
  intro cfg n hm
  refine ⟨inRange_self hm, ?high, ?low, ?belowHigh, ?aboveLow, ?noWrap, length_filter_inRange hm⟩
  case high => exact inRange_eq_false_iff.2 (.inr (Nat.le_refl _))
  case low => exact fun hle => inRange_eq_false_iff.2 (.inl (Nat.le_of_eq (Nat.sub_add_cancel hle)))
  case belowHigh => rw [inRange_iff]; omega
  case aboveLow => intro hle; rw [inRange_iff]; omega
  case noWrap =>
    intro hlt m
    rw [Bool.eq_iff_iff, inRange_iff, decide_eq_true_iff]
    omega

/-! ### Two windows (R6, R105) -/

/-- The windows of two nominals have a natural in common exactly when the nominals are close. -/
theorem exists_inRange_both_iff {cfg : Config} (hm : 1 ≤ cfg.margin) (a b : Nat) :
    (∃ x, inRange cfg x a = true ∧ inRange cfg x b = true) ↔ absDiff a b < 2 * cfg.margin - 1 := by
  simp only [inRange_iff, absDiff]
  constructor
  · rintro ⟨x, ⟨h1, h2⟩, h3, h4⟩
    omega
  · intro hclose
    -- the lowest natural that the window of the greater nominal holds
    exact ⟨max a b + 1 - cfg.margin, by omega, by omega⟩

section
variable {cfg : Config}

/-- Some pair of durations lies in the windows of both bits. -/
def BitWindowsMeet (cfg : Config) : Prop :=
  ∃ h l : Nat,
    (inRange cfg h cfg.tZeroH = true ∧ inRange cfg l cfg.tZeroL = true) ∧
      (inRange cfg h cfg.tOneH = true ∧ inRange cfg l cfg.tOneL = true)

theorem windowsDisjoint_iff_not_meet (hm : 1 ≤ cfg.margin) :
    windowsDisjoint cfg = true ↔ ¬ BitWindowsMeet cfg := by
  have hsplit : BitWindowsMeet cfg ↔
      (∃ h, inRange cfg h cfg.tZeroH = true ∧ inRange cfg h cfg.tOneH = true) ∧
        ∃ l, inRange cfg l cfg.tZeroL = true ∧ inRange cfg l cfg.tOneL = true := by
    constructor
    · rintro ⟨h, l, ⟨hz, lz⟩, ho, lo⟩
      exact ⟨⟨h, hz, ho⟩, l, lz, lo⟩
    · rintro ⟨⟨h, hz, ho⟩, l, lz, lo⟩
      exact ⟨h, l, ⟨hz, lz⟩, ho, lo⟩
  rw [hsplit, exists_inRange_both_iff hm, exists_inRange_both_iff hm, windowsDisjoint_iff]
  omega

theorem not_meet_of_configOk (h : configOk cfg = true) : ¬ BitWindowsMeet cfg := by
  obtain ⟨hm, hdis, -⟩ := configOk_iff.1 h
  exact (windowsDisjoint_iff_not_meet hm).1 hdis

/-- R105: no word is a match for both bits. -/
theorem not_pairMatch_both (h : configOk cfg = true) (w : SymW) :
    ¬ (pairMatch cfg w .one = true ∧ pairMatch cfg w .zero = true) := by
  rintro ⟨hone, hzero⟩
  exact not_meet_of_configOk h ⟨dur0 w, dur1 w, pairMatch_iff.1 hzero, pairMatch_iff.1 hone⟩

/-- A word at the nominal durations of a pair is a match for it. -/
theorem pairMatch_nominal (hm : 1 ≤ cfg.margin) {w : SymW} {sel : RefSel}
    (h0 : dur0 w = refH cfg sel) (h1 : dur1 w = refL cfg sel) : pairMatch cfg w sel = true :=
  pairMatch_iff.2 ⟨h0 ▸ inRange_self hm, h1 ▸ inRange_self hm⟩

theorem classifyBit_nominal_one (hm : 1 ≤ cfg.margin) {w : SymW} (h0 : dur0 w = cfg.tOneH)
    (h1 : dur1 w = cfg.tOneL) : classifyBit cfg w = .one :=
  classifyBit_eq_one.2 (pairMatch_nominal hm h0 h1)

theorem classifyBit_nominal_zero (h : configOk cfg = true) {w : SymW} (h0 : dur0 w = cfg.tZeroH)
    (h1 : dur1 w = cfg.tZeroL) : classifyBit cfg w = .zero := by
  have hzero : pairMatch cfg w .zero = true := pairMatch_nominal (configOk_iff.1 h).1 h0 h1
  have hone : ¬ pairMatch cfg w .one = true := fun hone => not_pairMatch_both h w ⟨hone, hzero⟩
  rw [classifyBit, if_neg hone, if_pos hzero]

end

/-- Settles O7: two windows meet exactly when the nominals are nearer than the difference test asks. -/
theorem windowCheckIsNonOverlap : Obligations.WindowCheckIsNonOverlap :=
  fun _ hm => windowsDisjoint_iff_not_meet hm

/-- Settles O8: either premise contradicts the check that a step makes first. -/
theorem illFormedConfigurationTakesNoStep : Obligations.IllFormedConfigurationTakesNoStep := by
  intro s hill
  have hbad : ¬ configOk s.cfg = true := by
    intro hcfg
    rcases hill with hzero | hmeet
    · have := (configOk_iff.1 hcfg).1
      omega
    · exact not_meet_of_configOk hcfg hmeet
  exact if_neg hbad

/-- Settles O16: a word that matched both bits would lie in both windows. -/
theorem bitWindowsNeverConflict : Obligations.BitWindowsNeverConflict :=
  fun _ w hcfg => ⟨not_pairMatch_both hcfg w, classifyBit_nominal_zero hcfg,
    classifyBit_nominal_one (configOk_iff.1 hcfg).1⟩

/-! ### What the combinational operations read and write (R71, R108) -/

/-- Settles O10: the two fields of the word by arithmetic. -/
theorem symbolGivesItsDurations : Obligations.SymbolGivesItsDurations := by
  intro w s
  rw [exec, execSymbol, dur0_eq, dur1_eq, State.drive]

/-- A field that a mask leaves alone is the same after the flip. -/
theorem extractLsb'_xor_of_and_eq_zero {w m keep : SymW} {start len : Nat}
    (hkeep : keep.extractLsb' start len = BitVec.allOnes len) (h : m &&& keep = 0#32) :
    (w ^^^ m).extractLsb' start len = w.extractLsb' start len := by
  have hm : m.extractLsb' start len = 0#len := by
    have hand := congrArg (BitVec.extractLsb' start len) h
    rwa [BitVec.extractLsb'_and, hkeep, BitVec.and_allOnes, BitVec.extractLsb'_zero] at hand
  rw [BitVec.extractLsb'_xor, hm, BitVec.xor_zero]

section
variable {w m : SymW} (h : m &&& 0x7FFF7FFF#32 = 0#32)
include h

theorem dur0_xor : dur0 (w ^^^ m) = dur0 w :=
  congrArg BitVec.toNat (extractLsb'_xor_of_and_eq_zero (by decide) h)

theorem dur1_xor : dur1 (w ^^^ m) = dur1 w :=
  congrArg BitVec.toNat (extractLsb'_xor_of_and_eq_zero (by decide) h)

theorem pairMatch_xor (cfg : Config) (sel : RefSel) :
    pairMatch cfg (w ^^^ m) sel = pairMatch cfg w sel := by
  rw [pairMatch, pairMatch, dur0_xor h, dur1_xor h]

end

/-- Settles O11: every operation on a symbol word reads its two durations alone. -/
theorem levelBitsChangeNoResult : Obligations.LevelBitsChangeNoResult := by
  intro w m s h
  rw [exec_checkLeading, exec_checkLeading, exec_checkRepeat, exec_checkRepeat]
  refine ⟨?symbol, ?lead, ?zero, ?one, ?rep, ?bit, ?lead, ?rep⟩
  case symbol => rw [exec, exec, execSymbol, execSymbol, dur0_xor h, dur1_xor h]
  case lead => rw [exec_pairMatchLead, exec_pairMatchLead, pairMatch_xor h]
  case zero => rw [exec_pairMatchZero, exec_pairMatchZero, pairMatch_xor h]
  case one => rw [exec_pairMatchOne, exec_pairMatchOne, pairMatch_xor h]
  case rep => rw [exec_pairMatchRep, exec_pairMatchRep, pairMatch_xor h]
  case bit =>
    rw [exec_classifyBit, exec_classifyBit, classifyBit, classifyBit, pairMatch_xor h,
      pairMatch_xor h]

/-- No combinational operation decodes the event in hand. -/
theorem combinational_and_decodesEvent (i : Instr) : (combinational i && decodesEvent i) = false := by
  cases i <;> rfl

/-- Settles O17: the one effect of a combinational operation is to drive its result. -/
theorem combinationalOperationsWriteNoRegister :
    Obligations.CombinationalOperationsWriteNoRegister := by
  intro i s t hi h
  cases exec_next h with
  | drive c => rfl
  | decode hdec =>
    have hnot := combinational_and_decodesEvent i
    rw [hi, hdec] at hnot
    cases hnot
  | _ => cases hi

end Sys2Proof.Machine
end

section
/-! The dispatcher and the outcomes: what decides the word of an event (R62, R137, R160), the word of
each path (R164 to R170), the outcome rows (log 7), and what an operation emits and does to the last pair
(R171 to R173). -/

namespace Sys2Proof.Machine

/-! ### DISPATCH by what it reads (R109, R137, R160) -/

section
variable {s : State} {e e' : Event}

theorem parse_congr (cfg : Config) (h : ∀ i, i < 33 → symRead e i = symRead e' i) :
    parse cfg e = parse cfg e' := by
  have hbits : classifyFrom cfg e 1 dataBits = classifyFrom cfg e' 1 dataBits :=
    classifyFrom_congr fun j _ hj => h j hj
  simp only [parse, h 0 (by decide), hbits]

theorem dispatchOf_congr_frame (hc : e.count = normalLen) (hc' : e'.count = normalLen)
    (h : ∀ i, i < 33 → symRead e i = symRead e' i) : s.dispatchOf e = s.dispatchOf e' := by
  rw [State.dispatchOf, State.dispatchOf, dispatch, dispatch, if_pos hc, if_pos hc', parse_congr _ h]

theorem dispatchOf_congr_repeat (hc : e.count = repeatLen) (hc' : e'.count = repeatLen)
    (h : symRead e 0 = symRead e' 0) : s.dispatchOf e = s.dispatchOf e' := by
  rw [dispatchOf_of_repeat hc, dispatchOf_of_repeat hc', repeatPath, repeatPath, h]

end

/-- Settles O21: both events dispatch alike, because neither path reads the closing symbol. -/
theorem closingSymbolIsNeverRead : Obligations.ClosingSymbolIsNeverRead := by
  intro e e' s hok hok' hcount hsame
  have hd : s.dispatchOf e = s.dispatchOf e' := by
    rcases hsame with ⟨hc, hsyms⟩ | ⟨hc, hsym⟩
    · exact dispatchOf_congr_frame hc (hcount ▸ hc) hsyms
    · exact dispatchOf_congr_repeat hc (hcount ▸ hc) hsym
  obtain ⟨d, hsome⟩ := dispatch_of_ok hok s.lastAddr s.lastCmd s.lastValid
  have hsome' : s.dispatchOf e' = some d := hd.symm.trans hsome
  rw [exec_dispatch_of_dispatchOf hok hsome, exec_dispatch_of_dispatchOf hok' hsome']

/-- COUNT of a well-formed event fits its field of the outcome word (R5, R73). -/
theorem count_lt_of_ok {cfg : Config} {e : Event} (hcfg : configOk cfg = true)
    (hok : eventOk cfg e = true) : e.count < 65536 := by
  obtain ⟨-, -, -, -, -, -, hbuf, -, -⟩ := configOk_iff.1 hcfg
  have := (eventOk_iff.1 hok).1
  omega

/-- Settles O26: DISPATCH answers for every well-formed event, with its count in the word. -/
theorem dispatchIsTotal : Obligations.DispatchIsTotal := by
  intro e s hcfg hok
  obtain ⟨d, hd⟩ := dispatch_of_ok hok s.lastAddr s.lastCmd s.lastValid
  exact ⟨d.word, d.lastAddr, d.lastCmd, d.lastValid, exec_dispatch_of_dispatchOf hok hd,
    dispatch_count hd (count_lt_of_ok hcfg hok)⟩

/-- Settles O29: the path reads no symbol and keeps the last pair it was given. -/
theorem unknownFramePathReportsTheCount : Obligations.UnknownFramePathReportsTheCount := by
  intro e s hcfg hok hn hr
  have hpath := dispatchOf_of_other (s := s) hn hr
  exact ⟨_, (exec_dispatch_of_other hn hr).symm.trans (exec_dispatch_of_dispatchOf hok hpath),
    plainOutcome_toNat _ (count_lt_of_ok hcfg hok) s.lastAddr s.lastCmd s.lastValid⟩

/-! ### The outcome rows are DECODE (log 7) -/

theorem decodeStep_of_dispatchOf {s : State} {e : Event} {d : Dispatched} (hf : s.fsm = .decode)
    (he : s.curEvt = some e) (hd : s.dispatchOf e = some d) :
    exec .decode s = .next ((s.emitted d).afterParse e) :=
  withDispatched_eq _ hf he hd

/-- An outcome operation is DECODE where DECODE emits its word. -/
theorem emitStep_eq_next_iff {s t : State} {w : OutW} :
    emitStep w s = .next t ↔ exec .decode s = .next t ∧ t.out = s.out ++ [w] := by
  constructor
  · intro h
    obtain ⟨e, d, hf, he, hd, rfl, rfl⟩ := emitStep_next h
    exact ⟨decodeStep_of_dispatchOf hf he hd, by simp⟩
  · rintro ⟨h, hout⟩
    obtain ⟨e, d, hf, he, hd, rfl⟩ := decodeStep_next h
    obtain rfl : d.word = w := by simpa using hout
    exact (withDispatched_eq _ hf he hd).trans (if_pos rfl)

/-- Settles O34: the seven rows are one operation with seven codes. -/
theorem outcomeOperationIsTheDecodeThatEmitsIt :
    Obligations.OutcomeOperationIsTheDecodeThatEmitsIt :=
  fun _ _ _ => ⟨emitStep_eq_next_iff, emitStep_eq_next_iff, emitStep_eq_next_iff,
    emitStep_eq_next_iff, emitStep_eq_next_iff, emitStep_eq_next_iff, emitStep_eq_next_iff⟩

/-- DECODE of the event in hand completes with what DISPATCH gives, and so does the outcome row of that
word. -/
theorem exists_emit_and_decode {s : State} {e : Event} {d : Dispatched} {w : OutW}
    (hdec : s.Decoding e) (hd : s.dispatchOf e = some d) (hw : d.word = w) :
    ∃ t, emitStep w s = .next t ∧ exec .decode s = .next t ∧
      s.Decoded t d.word d.lastAddr d.lastCmd d.lastValid ∧
      (e.count ≠ normalLen → s.SameParser t) :=
  ⟨_, hw ▸ emitStep_eq hdec hd, exec_decode_of_dispatchOf hdec hd, decoded_emitted s e d,
    sameParser_emitted s d⟩

/-! ### The word of each path (R164 to R170) -/

section
variable {cfg : Config} {a c la lc : BitVec 16} {lv : Bool}

theorem normalOutcome_word_of_hit {lab : BitVec 8} (h : lookup cfg (cmdKey c) = (true, lab)) :
    (normalOutcome cfg (.ok a c) la lc lv).word = mkOutcome 0x1#4 ⟨true, true, lab, a, c, 34#16⟩ := by
  simp only [normalOutcome, h, if_true]
  rfl

theorem normalOutcome_word_of_miss (h : (lookup cfg (cmdKey c)).1 = false) :
    (normalOutcome cfg (.ok a c) la lc lv).word =
      mkOutcome 0x2#4 ⟨true, false, 0#8, a, c, 34#16⟩ := by
  simp only [normalOutcome, h, Bool.false_eq_true, if_false]
  rfl

/-- The label of a key is already zero where the key misses (R79). -/
theorem lookup_label_ite (cfg : Config) (key : BitVec 8) :
    (if (lookup cfg key).1 then (lookup cfg key).2 else 0#8) = (lookup cfg key).2 := by
  cases hhit : (lookup cfg key).1
  · exact (lookup_label_of_miss hhit).symm
  · rfl

/-- The word of a repeat with a last pair to report. -/
theorem repeatOutcome_word_of_valid (cfg : Config) (la lc : BitVec 16) :
    (repeatOutcome cfg true la lc true).word =
      mkOutcome 0x5#4
        ⟨true, (lookup cfg (cmdKey lc)).1, (lookup cfg (cmdKey lc)).2, la, lc, 2#16⟩ := by
  simp only [repeatOutcome, if_true, lookup_label_ite]
  rfl

end

/-- Settles O30: the word by the lookup of the command's upper byte, emitted by DECODE. -/
theorem goodFrameEmitsKeyOrUnmappedKey : Obligations.GoodFrameEmitsKeyOrUnmappedKey := by
  intro s e a c lab hdec hc hparse
  have hd : s.dispatchOf e = some (s.normalOf (.ok a c)) := dispatchOf_of_parse hc hparse
  have hnat := normalOutcome_ok_toNat s.cfg a c s.lastAddr s.lastCmd s.lastValid
  refine ⟨fun hhit => ?hit, fun hmiss => ?miss⟩
  case hit =>
    obtain ⟨t, hrow, hdecode, hleft, -⟩ := exists_emit_and_decode hdec hd (normalOutcome_word_of_hit hhit)
    rw [hhit] at hnat
    exact ⟨t, _, hrow, hdecode, hleft, hnat⟩
  case miss =>
    obtain ⟨t, hrow, hdecode, hleft, -⟩ :=
      exists_emit_and_decode hdec hd (normalOutcome_word_of_miss hmiss)
    rw [hmiss] at hnat
    exact ⟨t, _, hrow, hdecode, hleft, hnat⟩

/-- Settles O31: both rejections carry the count alone. -/
theorem rejectedFrameKeepsTheLastPair : Obligations.RejectedFrameKeepsTheLastPair := by
  intro s e hdec hc
  refine ⟨fun hparse => ?badLeading, fun hparse => ?badBit⟩
  case badLeading =>
    obtain ⟨t, hrow, hdecode, hleft, -⟩ :=
      exists_emit_and_decode hdec (dispatchOf_of_parse hc hparse) rfl
    exact ⟨t, _, hrow, hdecode, hleft, rfl⟩
  case badBit =>
    obtain ⟨t, hrow, hdecode, hleft, -⟩ :=
      exists_emit_and_decode hdec (dispatchOf_of_parse hc hparse) rfl
    exact ⟨t, _, hrow, hdecode, hleft, rfl⟩

/-- Settles O32: the three outcomes of the repeat check and LAST_VALID; no case writes the pair. -/
theorem repeatFrameEmitsRepeatOrNotRepeat : Obligations.RepeatFrameEmitsRepeatOrNotRepeat := by
  intro s e w hdec hc hw
  have hn : e.count ≠ normalLen := by rw [hc]; decide
  have hd : s.dispatchOf e = some
      (repeatOutcome s.cfg (checkRepeat s.cfg w) s.lastAddr s.lastCmd s.lastValid) := by
    rw [dispatchOf_of_repeat hc, repeatPath, hw, Option.map_some]
  have hnat := repeatOutcome_toNat s.cfg (checkRepeat s.cfg w) s.lastAddr s.lastCmd s.lastValid
  rw [repeatOutcome_eq] at hd
  refine ⟨fun hrep hvalid => ?pair, fun hrep hvalid => ?noPair, fun hrep => ?notRepeat⟩
  case pair =>
    rw [hrep, hvalid] at hd hnat
    obtain ⟨t, hrow, hdecode, hleft, hparser⟩ :=
      exists_emit_and_decode hdec hd (repeatOutcome_word_of_valid ..)
    exact ⟨t, _, hrow, hdecode, hvalid ▸ hleft, hparser hn, hnat⟩
  case noPair =>
    rw [hrep, hvalid] at hd
    obtain ⟨t, hrow, hdecode, hleft, hparser⟩ := exists_emit_and_decode hdec hd rfl
    exact ⟨t, _, hrow, hdecode, hvalid ▸ hleft, hparser hn, rfl⟩
  case notRepeat =>
    rw [hrep] at hd
    obtain ⟨t, hrow, hdecode, hleft, hparser⟩ := exists_emit_and_decode hdec hd rfl
    exact ⟨t, _, hrow, hdecode, hleft, hparser hn, rfl⟩

/-- Settles O33: the path of every other count, emitted by DECODE. -/
theorem otherLengthEmitsUnknownFrame : Obligations.OtherLengthEmitsUnknownFrame := by
  intro s e hcfg hdec hn hr
  have ⟨_, _, hok⟩ := hdec
  obtain ⟨t, hrow, hdecode, hleft, hparser⟩ :=
    exists_emit_and_decode hdec (dispatchOf_of_other hn hr) rfl
  exact ⟨t, _, hrow, hdecode, hleft, hparser hn, plainOutcome_toNat _ (count_lt_of_ok hcfg hok) ..⟩

/-- Settles O39: DISPATCH reads the event, the configuration and the last pair. -/
theorem outcomeDependsOnEventAndLastPairAlone :
    Obligations.OutcomeDependsOnEventAndLastPairAlone := by
  intro s s' t t' hcfg hcur haddr hcmd hvalid h h'
  obtain ⟨e, d, -, he, hd, rfl⟩ := decodeStep_next h
  obtain ⟨e', d', -, he', hd', rfl⟩ := decodeStep_next h'
  obtain rfl : e = e' := Option.some.inj (he.symm.trans (hcur.trans he'))
  obtain rfl : d = d' := by
    rw [State.dispatchOf, hcfg, haddr, hcmd, hvalid] at hd
    exact Option.some.inj (hd.symm.trans hd')
  exact ⟨⟨d.word, by simp, by simp⟩, by simp, by simp, by simp⟩

/-! ### What an operation emits and does to the last pair -/

/-- The last pair is that of before. -/
def State.SamePair (s t : State) : Prop :=
  t.lastAddr = s.lastAddr ∧ t.lastCmd = s.lastCmd ∧ t.lastValid = s.lastValid

section
variable {s t : State} {i : Instr}

/-- An operation is silent, or it decodes the event in hand, or it is a micro-step. -/
theorem Effect.silent_or_decodes_or_pstep (h : Effect s i t) :
    (t.out = s.out ∧ (s.SamePair t ∨ i = .reset)) ∨
      (∃ e d, s.fsm = .decode ∧ s.curEvt = some e ∧ s.dispatchOf e = some d ∧
        t = (s.emitted d).afterParse e) ∨
      ∃ e w, s.fsm = .decode ∧ s.curEvt = some e ∧ e.count = normalLen ∧
        symRead e s.idx.toNat = some w ∧ PstepEffect s w t := by
  cases h with
  | decode _ hf he hd => exact .inr (.inl ⟨_, _, hf, he, hd, rfl⟩)
  | pstep hf he hc _ hw hp => exact .inr (.inr ⟨_, _, hf, he, hc, hw, hp⟩)
  | reset => exact .inl ⟨rfl, .inr rfl⟩
  | _ => exact .inl ⟨rfl, .inl ⟨rfl, rfl, rfl⟩⟩

/-- What may be emitted for an event: what DISPATCH gives it, or the normal outcome of some parse
result, where a micro-step ends the parse. -/
def State.MayEmit (s : State) (e : Event) (d : Dispatched) : Prop :=
  s.dispatchOf e = some d ∨ (e.count = normalLen ∧ ∃ r, d = s.normalOf r)

/-- An operation emits nothing, or one word for the event in hand, and that completes the DECODE step. -/
theorem Effect.silent_or_decoded (h : Effect s i t) :
    t.out = s.out ∨ ∃ e d, s.fsm = .decode ∧ s.curEvt = some e ∧ s.MayEmit e d ∧
      s.Decoded t d.word d.lastAddr d.lastCmd d.lastValid := by
  rcases h.silent_or_decodes_or_pstep with
    ⟨hout, -⟩ | ⟨e, d, hf, he, hd, rfl⟩ | ⟨e, w, hf, he, hc, -, hp⟩
  · exact .inl hout
  · exact .inr ⟨e, d, hf, he, .inl hd, decoded_emitted s e d⟩
  · rcases hp.shifts_or_finishes with ⟨_, _, _, rfl⟩ | ⟨r, _, _, _, rfl⟩
    · exact .inl rfl
    · exact .inr ⟨e, _, hf, he, .inr ⟨hc, r, rfl⟩, decoded_finished s _ _ _ _⟩

theorem State.MayEmit.count {e : Event} {d : Dispatched} (h : s.MayEmit e d)
    (hlt : e.count < 65536) : wordCount d.word = e.count := by
  rcases h with hd | ⟨hc, r, rfl⟩
  · exact dispatch_count hd hlt
  · rw [State.normalOf, normalOutcome_count, hc]

/-- An operation emits one word at most. -/
theorem Effect.out_eq (h : Effect s i t) : ∃ os, t.out = s.out ++ os ∧ os.length ≤ 1 := by
  rcases h.silent_or_decoded with hout | ⟨e, d, -, -, -, hleft⟩
  · exact ⟨[], by simp [hout], by simp⟩
  · exact ⟨[d.word], hleft.out, by simp⟩

end

/-- Settles O36: the word carries the count of the event that the operation gives up. -/
theorem oneOutcomePerDecodedEvent : Obligations.OneOutcomePerDecodedEvent := by
  intro i s t hinv h
  rcases (exec_next h).silent_or_decoded with hout | ⟨e, d, hf, he, hmay, hleft⟩
  · exact .inl hout
  · exact .inr ⟨d.word, e, hleft.out, hf, he,
      hmay.count (count_lt_of_ok hinv.config (hinv.curOk e he)), hleft.fsm, hleft.curEvt⟩

/-- Settles O37, by induction on the number of steps. -/
theorem emittedWordsAreNeverWithdrawn : Obligations.EmittedWordsAreNeverWithdrawn := by
  intro n
  induction n with
  | zero =>
    intro s t h
    cases h
    exact ⟨[], by simp, by simp⟩
  | succ n ih =>
    intro s t h
    rw [steps] at h
    cases hu : step s with
    | next u =>
      simp only [hu] at h
      obtain ⟨_, _, _, heff⟩ := step_effect hu
      obtain ⟨os, hos, hlen⟩ := heff.out_eq
      obtain ⟨os', hos', hlen'⟩ := ih u t h
      refine ⟨os ++ os', ?_, ?_⟩
      · rw [hos', hos, List.append_assoc]
      · rw [List.length_append]
        omega
    | fault r => simp [hu] at h
    | refused r => simp [hu] at h

/-- Settles O35: a micro-step that ends the parse hands on what PARSE answers, so that in every case the
new pair is the one DISPATCH gives. -/
theorem lastPairWrittenOnlyByGoodFrames : Obligations.LastPairWrittenOnlyByGoodFrames := by
  intro i s t hinv hprog h
  rcases (exec_next h).silent_or_decodes_or_pstep with
    ⟨-, hsame | hreset⟩ | ⟨e, d, hf, he, hd, rfl⟩ | ⟨e, w, hf, he, hc, hw, hp⟩
  · exact .inl hsame
  · exact .inr (.inl hreset)
  · rcases dispatch_last hd with ⟨a, c, hc, hparse, rfl, rfl, hv⟩ | hsame
    · exact .inr (.inr ⟨hf, by simpa using hv, e, he, hc, by simpa using hparse⟩)
    · exact .inl (by simpa using hsame)
  · rcases hp.of_parserAt (hinv.curOk e he) hc (hprog e hf he hc) hw with
      ⟨_, _, _, rfl, -⟩ | ⟨r, _, _, _, hparse, rfl⟩
    · exact .inl ⟨rfl, rfl, rfl⟩
    · rcases normalOutcome_last s.cfg r s.lastAddr s.lastCmd s.lastValid with
        ⟨a, c, rfl, -, -, hv⟩ | hsame
      · exact .inr (.inr ⟨hf, hv, e, he, hc, hparse⟩)
      · exact .inl hsame

/-! ### The fields of a word follow its code (R173) -/

/-- The fields that R173 allows under a code, with LAST_VALID `v` before. -/
structure FieldsFollow (cfg : Config) (v : Bool) (code : BitVec 4) (f : OutFields) : Prop where
  codePos  : 1 ≤ code.toNat
  codeLe   : code.toNat ≤ 7
  lv       : f.lv = true ↔ code.toNat = 1 ∨ code.toNat = 2 ∨ (code.toNat = 5 ∧ v = true)
  mapped   : f.mapped = true ↔ f.lv = true ∧ (lookup cfg (cmdKey f.cmd)).1 = true
  label    : f.label = if f.mapped then (lookup cfg (cmdKey f.cmd)).2 else 0x00#8
  noPair   : f.lv = false → f.addr = 0x0000#16 ∧ f.cmd = 0x0000#16

/-- A dispatched word whose fields follow its code. -/
def Dispatched.Follows (d : Dispatched) (cfg : Config) (v : Bool) : Prop :=
  ∃ code f, d.word = mkOutcome code f ∧ FieldsFollow cfg v code f

theorem plainOutcome_follows (cfg : Config) {v : Bool} {code : BitVec 4}
    (hcode : 3 ≤ code.toNat ∧ code.toNat ≤ 7) (hrepeat : code.toNat ≠ 5 ∨ v = false) (n : Nat)
    (la lc : BitVec 16) (lv : Bool) : (plainOutcome code n la lc lv).Follows cfg v := by
  refine ⟨code, _, rfl, by omega, hcode.2, ?_, by simp, by simp, by simp⟩
  simp only [Bool.false_eq_true, false_iff]
  rintro (h | h | ⟨h, rfl⟩)
  · omega
  · omega
  · simp [h] at hrepeat

theorem normalOutcome_follows (cfg : Config) (v : Bool) (r : ParseResult) (la lc : BitVec 16)
    (lv : Bool) : (normalOutcome cfg r la lc lv).Follows cfg v := by
  cases r with
  | ok a c =>
    cases hhit : (lookup cfg (cmdKey c)).1
    · exact ⟨0x2#4, _, normalOutcome_word_of_miss hhit, by decide, by decide, by simp,
        by simp [hhit], by simp, by simp⟩
    · exact ⟨0x1#4, _, normalOutcome_word_of_hit (Prod.ext hhit rfl), by decide, by decide, by simp,
        by simp [hhit], by simp, by simp⟩
  | badLeading => exact plainOutcome_follows cfg (by decide) (.inl (by decide)) ..
  | badBit => exact plainOutcome_follows cfg (by decide) (.inl (by decide)) ..

theorem repeatOutcome_follows (cfg : Config) (b : Bool) (la lc : BitVec 16) (lv : Bool) :
    (repeatOutcome cfg b la lc lv).Follows cfg lv := by
  cases b with
  | false => exact plainOutcome_follows cfg (by decide) (.inl (by decide)) ..
  | true =>
    cases lv with
    | false => exact plainOutcome_follows cfg (by decide) (.inr rfl) ..
    | true =>
      exact ⟨0x5#4, _, repeatOutcome_word_of_valid cfg la lc, by decide, by decide, by simp, by simp,
        (lookup_label_ite ..).symm, by simp⟩

theorem State.MayEmit.follows {s : State} {e : Event} {d : Dispatched} (h : s.MayEmit e d) :
    d.Follows s.cfg s.lastValid := by
  rcases h with hd | ⟨-, r, rfl⟩
  · rw [State.dispatchOf, dispatch] at hd
    split at hd
    · obtain ⟨r, -, rfl⟩ := Option.map_eq_some_iff.1 hd
      exact normalOutcome_follows ..
    · split at hd
      · obtain ⟨w, -, rfl⟩ := Option.map_eq_some_iff.1 hd
        exact repeatOutcome_follows ..
      · cases hd
        exact plainOutcome_follows s.cfg (by decide) (.inl (by decide)) ..
  · exact normalOutcome_follows ..

/-- Settles O38: the fields of the word emitted, read back from its bits. -/
theorem outcomeFieldsFollowTheCode : Obligations.OutcomeFieldsFollowTheCode := by
  intro i s t o h hout
  rcases (exec_next h).silent_or_decoded with hsilent | ⟨e, d, -, -, hmay, hleft⟩
  · simp [hsilent] at hout
  · obtain rfl : d.word = o := by simpa [hleft.out] using hout
    obtain ⟨code, f, hword, hfollow⟩ := hmay.follows
    have hcode : d.word.toNat % 16 = code.toNat := by
      rw [← outCode_toNat, hword, outCode_mkOutcome]
    have hfields : outFields d.word = f := hword ▸ outFields_mkOutcome code f
    have hreserved : outReserved d.word = 0#2 := hword ▸ outReserved_mkOutcome code f
    subst hfields
    simp only [hcode]
    exact ⟨hfollow.codePos, hfollow.codeLe, hreserved, hfollow.lv, hfollow.mapped, hfollow.label,
      hfollow.noPair⟩

end Sys2Proof.Machine
end

section
/-! Frames of nominal words (R84): the durations of a nominal word, the class of each symbol of such a
frame, and the pair that PARSE assembles from it. -/

namespace Sys2Proof.Machine

/-! ### Nominal words (R70, R84) -/

theorem mkSymbol_toNat (l1 : Bool) (d1 : BitVec 15) (l0 : Bool) (d0 : BitVec 15) :
    (mkSymbol l1 d1 l0 d0).toNat =
      l1.toNat * 2 ^ 31 + d1.toNat * 2 ^ 16 + l0.toNat * 2 ^ 15 + d0.toNat := by
  have join (a b n : Nat) (h : b < 2 ^ n) : a <<< n ||| b = a * 2 ^ n + b := by
    rw [← Nat.shiftLeft_add_eq_or_of_lt h, Nat.shiftLeft_eq]
  unfold mkSymbol
  simp only [BitVec.toNat_append, BitVec.toNat_ofBool]
  rw [join _ _ 15 d1.isLt, join _ _ 1 l0.toNat_lt, join _ _ 15 d0.isLt]
  omega

section
variable {high low : Nat}

theorem dur0_nominalWord (h : high < 32768) : dur0 (nominalWord high low) = high := by
  rw [dur0_eq, nominalWord, mkSymbol_toNat, BitVec.toNat_ofNat, BitVec.toNat_ofNat, Bool.toNat_false,
    Bool.toNat_true]
  omega

theorem dur1_nominalWord (h : low < 32768) : dur1 (nominalWord high low) = low := by
  rw [dur1_eq, nominalWord, mkSymbol_toNat, BitVec.toNat_ofNat, BitVec.toNat_ofNat, Bool.toNat_false,
    Bool.toNat_true]
  omega

end

/-! ### The symbols of a frame (R84) -/

section
variable {lead one zero last : SymW} {a c : BitVec 16}

theorem frameSyms_length : (frameSyms lead one zero last a c).length = 34 := by
  simp [frameSyms]

theorem symRead_frame {i : Nat} (hi : i < 34) :
    symRead ⟨34, frameSyms lead one zero last a c⟩ i = (frameSyms lead one zero last a c)[i]? :=
  if_pos hi

theorem frameSyms_addr {i : Nat} (hi : i < 16) :
    (frameSyms lead one zero last a c)[1 + i]? = some (bitWord one zero a i) := by
  simp [frameSyms, Nat.add_comm 1 i, List.getElem?_append_left, hi]

theorem frameSyms_cmd {i : Nat} (hi : i < 16) :
    (frameSyms lead one zero last a c)[1 + (16 + i)]? = some (bitWord one zero c i) := by
  simp [frameSyms, Nat.add_comm 1 (16 + i), List.getElem?_append_left,
    List.getElem?_append_right, hi]

section
variable {cfg : Config} (hone : classifyBit cfg one = .one) (hzero : classifyBit cfg zero = .zero)
include hone hzero

theorem classifyBit_bitWord (v : BitVec 16) (i : Nat) :
    classifyBit cfg (bitWord one zero v i) = if v.getLsbD i then .one else .zero := by
  rw [bitWord]
  split <;> assumption

theorem dataBit_frame_addr {i : Nat} (hi : i < 16) :
    dataBit cfg ⟨34, frameSyms lead one zero last a c⟩ i =
      some (if a.getLsbD i then .one else .zero) := by
  rw [dataBit, symRead_frame (by omega), frameSyms_addr hi, Option.map_some,
    classifyBit_bitWord hone hzero]

theorem dataBit_frame_cmd {i : Nat} (hi : i < 16) :
    dataBit cfg ⟨34, frameSyms lead one zero last a c⟩ (16 + i) =
      some (if c.getLsbD i then .one else .zero) := by
  rw [dataBit, symRead_frame (by omega), frameSyms_cmd hi, Option.map_some,
    classifyBit_bitWord hone hzero]

theorem dataBit_frame_valid {k : Nat} (hk : k < 32) :
    dataBit cfg ⟨34, frameSyms lead one zero last a c⟩ k ≠ some .invalid := by
  by_cases hlow : k < 16
  · rw [dataBit_frame_addr hone hzero hlow]
    split <;> decide
  · obtain ⟨i, rfl⟩ : ∃ i, k = 16 + i := Nat.exists_eq_add_of_le (Nat.le_of_not_lt hlow)
    rw [dataBit_frame_cmd hone hzero (by omega)]
    split <;> decide

end

theorem decide_bit_one (b : Bool) :
    decide (some (if b then BitClass.one else BitClass.zero) = some BitClass.one) = b := by
  cases b <;> rfl

/-- A frame whose words have the classes they stand for is parsed to its pair. -/
theorem parse_frame {s : State} (hok : eventOk s.cfg ⟨34, frameSyms lead one zero last a c⟩ = true)
    (hlead : checkLeading s.cfg lead = true) (hone : classifyBit s.cfg one = .one)
    (hzero : classifyBit s.cfg zero = .zero) :
    parse s.cfg ⟨34, frameSyms lead one zero last a c⟩ = some (.ok a c) := by
  obtain ⟨a', c', hexec, haddr, hcmd⟩ := parseAssemblesLeastSignificantBitFirst _ s hok rfl
    ⟨lead, symRead_frame (by decide), hlead⟩ fun k hk => dataBit_frame_valid hone hzero hk
  have ha : a' = a := BitVec.eq_of_getLsbD_eq fun i hi => by
    rw [haddr i hi, dataBit_frame_addr hone hzero hi, decide_bit_one]
  have hc : c' = c := BitVec.eq_of_getLsbD_eq fun i hi => by
    rw [hcmd i hi, dataBit_frame_cmd hone hzero hi, decide_bit_one]
  rw [parse_of_exec_parse hexec, ha, hc]

end

/-- Settles O40: the nominal words have the classes they stand for, so PARSE gives the pair back. -/
theorem nominalFrameDecodesToItsPair : Obligations.NominalFrameDecodesToItsPair := by
  intro s a c last hcfg hf hleadH hleadL hzeroH hzeroL honeH honeL he
  obtain ⟨hm, -, -, -, -, hbuf, -⟩ := configOk_iff.1 hcfg
  have hok : eventOk s.cfg ⟨34, frameSyms (nominalWord s.cfg.tLeadH s.cfg.tLeadL)
      (nominalWord s.cfg.tOneH s.cfg.tOneL) (nominalWord s.cfg.tZeroH s.cfg.tZeroL) last a c⟩ = true :=
    eventOk_iff.2 ⟨hbuf, frameSyms_length.symm⟩
  have hparse := parse_frame hok
    (pairMatch_nominal (sel := .lead) hm (dur0_nominalWord hleadH) (dur1_nominalWord hleadL))
    (classifyBit_nominal_one hm (dur0_nominalWord honeH) (dur1_nominalWord honeL))
    (classifyBit_nominal_zero hcfg (dur0_nominalWord hzeroH) (dur1_nominalWord hzeroL))
  exact ⟨_, _, exec_decode_of_dispatchOf ⟨hf, he, hok⟩ (dispatchOf_of_parse rfl hparse),
    decoded_emitted s _ _, normalOutcome_ok_toNat ..⟩

end Sys2Proof.Machine
end

section
/-! Runs: arm requests that fail (R192, R199), events queued, decoded and posted in turn (R60, R140),
runs that stay safe (R233), and the progress of fair ones (R201). -/

namespace Sys2Proof.Machine

/-! ### Failed arm requests (R192) -/

theorem execAll_armFail {s : State} (hf : s.fsm = .arm) (h0 : s.retryCnt = 0) :
    ∀ k, k ≤ s.cfg.rearmRetries →
      execAll (List.replicate k .armFail) s = .next { s with retryCnt := k } := by
  intro k
  induction k with
  | zero =>
    intro _
    have hsame : s = { s with retryCnt := 0 } := by rw [← h0]
    exact congrArg Host.Outcome.next hsame
  | succ k ih =>
    intro hk
    have hstep : exec .armFail { s with retryCnt := k } = .next { s with retryCnt := k + 1 } := by
      rw [exec_armFail_of_retry (s := { s with retryCnt := k }) hf hk, State.retryArm, ← hf]
    rw [List.replicate_succ', execAll_append (ih (Nat.le_of_succ_le hk)), execAll_cons hstep]
    rfl

/-- Settles O43: each failure counts one retry while one is left, and the next one finds none. -/
theorem retriesRunOutAtTheLimit : Obligations.RetriesRunOutAtTheLimit := by
  intro s hf h0
  refine ⟨execAll_armFail hf h0, ?fault⟩
  case fault =>
    have hlast := exec_armFail_of_no_retry (s := { s with retryCnt := s.cfg.rearmRetries }) hf
      (Nat.lt_irrefl _)
    rw [List.replicate_succ', execAll_append (execAll_armFail hf h0 _ (Nat.le_refl _)),
      execAll_cons hlast]
    rfl

/-! ### FAULT (R199, R233) -/

section
variable {s t : State} {i : Instr}

theorem Effect.of_fault (h : Effect s i t) (hf : s.fsm = .fault) :
    i = .reset ∨
      (t.fsm = .fault ∧ i ≠ .armOk ∧ i ≠ .armFail ∧ i ≠ .dequeue ∧ i ≠ .timeout ∧ i ≠ .decode ∧
        i ≠ .pstep) := by
  cases h with
  | drive c hc =>
    refine .inr ⟨hf, ?_, ?_, ?_, ?_, ?_, ?_⟩ <;>
    · rintro rfl
      cases hc
  | post => exact .inr ⟨hf, nofun, nofun, nofun, nofun, nofun, nofun⟩
  | reset => exact .inl rfl
  | armOk h' | retry h' | toFault h' | takeFrame h' | take h' | timeout h' | decode _ h'
  | pstep h' => cases hf.symm.trans h'

theorem Effect.into_fault (h : Effect s i t) (hf : s.fsm ≠ .fault) (ht : t.fsm = .fault) :
    i = .armFail ∧ s.fsm = .arm ∧ ¬ s.retryCnt < s.cfg.rearmRetries := by
  cases h with
  | toFault harm hretry => exact ⟨rfl, harm, hretry⟩
  | drive | post | timeout => exact absurd ht hf
  | decode => simp at ht
  | pstep _ _ _ _ _ hp =>
    rcases hp.shifts_or_finishes with ⟨_, _, _, rfl⟩ | ⟨_, _, _, _, rfl⟩
    · exact absurd ht hf
    · cases ht
  | armOk | retry | takeFrame | take | reset => cases ht

end

/-- Settles O49: by the cases of `Effect`, in both directions. -/
theorem faultIsStickyAndEnteredOnlyByArmFail : Obligations.FaultIsStickyAndEnteredOnlyByArmFail :=
  fun _ _ _ h => ⟨(exec_next h).of_fault, (exec_next h).into_fault⟩

/-! ### POST beside DECODE (R140, R235) -/

theorem posted_decoded_comm (s : State) (e e' : Event) (d : Dispatched) :
    ((s.posted e').emitted d).afterParse e = ((s.emitted d).afterParse e).posted e' := by
  unfold State.afterParse
  split <;> rfl

/-- Settles O51: the two write different fields and neither reads what the other writes. -/
theorem postAndDecodeCommute : Obligations.PostAndDecodeCommute := by
  intro e e' s hdec hmay hok'
  have ⟨hf, he, hok⟩ := hdec
  have hallowed : postAllowed s = true := postAllowed_iff.2 hmay
  obtain ⟨d, hd⟩ := dispatch_of_ok hok s.lastAddr s.lastCmd s.lastValid
  refine ⟨((s.posted e').emitted d).afterParse e, ?postFirst, ?decodeFirst⟩
  case postFirst =>
    have hdecode : exec .decode (s.posted e') = .next (((s.posted e').emitted d).afterParse e) :=
      decodeStep_of_dispatchOf hf he hd
    exact (execAll_cons (exec_post_of_ok hallowed hok') _).trans (execAll_cons hdecode _)
  case decodeFirst =>
    have hpost : exec (.post e') ((s.emitted d).afterParse e) =
        .next (((s.emitted d).afterParse e).posted e') :=
      exec_post_of_ok (by simpa [postAllowed] using hmay) (by simpa using hok')
    rw [posted_decoded_comm]
    exact (execAll_cons (exec_decode_of_dispatchOf hdec hd) _).trans (execAll_cons hpost _)

/-! ### Emptying the queue (R60, R268) -/

section
variable {s : State} {e : Event} {q : List Event}

/-- DEQUEUE takes the head and may start the parser. -/
theorem exists_exec_dequeue (hf : s.fsm = .wait) (hq : s.queue = e :: q) :
    ∃ sr n x, exec .dequeue s = .next ((s.taken e q).shifted sr n x) := by
  rw [exec_dequeue_of_cons hf hq]
  split
  · exact ⟨0#32, 0#6, 0#16, rfl⟩
  · exact ⟨s.sr, s.bitCnt, s.idx, rfl⟩

/-- One round of the controller: the head of the queue is dispatched with the last pair of before, and
the controller waits again. -/
theorem exists_round (hf : s.fsm = .wait) (hq : s.queue = e :: q) (hok : eventOk s.cfg e = true) :
    ∃ d t, s.dispatchOf e = some d ∧ execAll [.dequeue, .decode, .armOk] s = .next t ∧
      t.out = s.out ++ [d.word] ∧ t.lastAddr = d.lastAddr ∧ t.lastCmd = d.lastCmd ∧
      t.lastValid = d.lastValid ∧ t.queue = q ∧ t.fsm = .wait ∧ t.cfg = s.cfg := by
  obtain ⟨d, hd⟩ := dispatch_of_ok hok s.lastAddr s.lastCmd s.lastValid
  obtain ⟨sr, n, x, hdequeue⟩ := exists_exec_dequeue hf hq
  have hdecode := decodeStep_of_dispatchOf (s := (s.taken e q).shifted sr n x) rfl rfl hd
  have harm := exec_armOk_of_arm
    (s := (((s.taken e q).shifted sr n x).emitted d).afterParse e) (by simp)
  have hrun := (execAll_cons hdequeue _).trans ((execAll_cons hdecode _).trans (execAll_cons harm []))
  refine ⟨d, _, hd, hrun, ?_⟩
  simp

/-- Round by round, the words are those of the queued events in order, each with the last pair that the
ones before it left. -/
theorem exists_drained : ∀ {q : List Event} {s : State}, s.fsm = .wait → s.queue = q →
    (∀ e, e ∈ q → eventOk s.cfg e = true ∧ e.count < 65536) →
    ∃ t os,
      execAll (List.replicate q.length [.dequeue, .decode, .armOk]).flatten s = .next t ∧
      t.out = s.out ++ os ∧
      dispatchAll s.cfg q s.lastAddr s.lastCmd s.lastValid
        = some (os, t.lastAddr, t.lastCmd, t.lastValid) ∧
      os.map wordCount = q.map Event.count ∧ t.queue = [] ∧ t.fsm = .wait := by
  intro q
  induction q with
  | nil =>
    intro s hf hq _
    exact ⟨s, [], rfl, (List.append_nil _).symm, rfl, rfl, hq, hf⟩
  | cons e q ih =>
    intro s hf hq hall
    obtain ⟨hok, hcount⟩ := hall e List.mem_cons_self
    obtain ⟨d, u, hd, hround, hout, ha, hc, hv, hq', hf', hcfg⟩ := exists_round hf hq hok
    obtain ⟨t, os, hrun, hout', hwords, hcounts, hend⟩ :=
      ih hf' hq' fun x hx => hcfg ▸ hall x (List.mem_cons_of_mem e hx)
    refine ⟨t, d.word :: os, ?_, ?_, ?_, ?_, hend⟩
    · rw [List.length_cons, List.replicate_succ, List.flatten_cons, execAll_append hround, hrun]
    · rw [hout', hout, List.append_assoc, List.singleton_append]
    · rw [ha, hc, hv, hcfg] at hwords
      have hd' : dispatch s.cfg e s.lastAddr s.lastCmd s.lastValid = some d := hd
      simp only [dispatchAll, hd', hwords, Option.map_some]
    · rw [List.map_cons, List.map_cons, hcounts, dispatch_count hd hcount]

end

/-- Settles O50: one round of the controller for each event, by induction on the queue. -/
theorem outcomesFollowTheQueueOrder : Obligations.OutcomesFollowTheQueueOrder :=
  fun _ hcfg hf hall =>
    exists_drained hf rfl fun e he => ⟨hall e he, count_lt_of_ok hcfg (hall e he)⟩

/-! ### No internal error in a state that meets the invariant (R52) -/

section
variable {s : State} {e : Event} {f : Fault}

theorem withEvent_ne_fault {p : Nat → Bool} {k : Option Comb}
    (h : eventOk s.cfg e = true → p e.count = true → ∃ c, k = some c) :
    withEvent s e p k ≠ .fault f := by
  unfold withEvent
  split
  next hok =>
    split
    next hp =>
      obtain ⟨c, rfl⟩ := h hok hp
      nofun
    next => nofun
  next => nofun

/-- In DECODE an event is held and well formed (R25). -/
theorem State.Inv.decoding (h : s.Inv) (hf : s.fsm = .decode) : ∃ e, s.Decoding e := by
  obtain ⟨e, he⟩ := Option.isSome_iff_exists.1 (h.curHeld.2 hf)
  exact ⟨e, hf, he, h.curOk e he⟩

theorem withDispatched_ne_fault {k : Event → Dispatched → Result} (h : s.Inv)
    (hk : ∀ e d, k e d ≠ .fault f) : withDispatched s k ≠ .fault f := by
  by_cases hf : s.fsm = .decode
  · obtain ⟨e, -, he, hok⟩ := h.decoding hf
    obtain ⟨d, hd⟩ := dispatch_of_ok hok s.lastAddr s.lastCmd s.lastValid
    rw [withDispatched_eq k hf he hd]
    exact hk e d
  · rw [withDispatched, if_neg hf]
    nofun

theorem emitStep_ne_fault (h : s.Inv) (w : OutW) : emitStep w s ≠ .fault f :=
  withDispatched_ne_fault h fun e d => by split <;> nofun

theorem execPstep_ne_fault (h : s.Inv) : execPstep s ≠ .fault f := by
  by_cases hf : s.fsm = .decode
  · obtain ⟨e, hdec⟩ := h.decoding hf
    have ⟨_, he, hok⟩ := hdec
    by_cases hrun : e.count = normalLen ∧ parseRunning s = true
    · obtain ⟨hc, hrun⟩ := hrun
      have hlt : s.idx.toNat < e.count := by
        have := (parseRunning_iff.1 hrun).1
        simp only [normalLen] at hc
        omega
      obtain ⟨w, hw⟩ := symRead_of_lt hlt (eventOk_iff.1 hok).2
      obtain ⟨t, ht, -⟩ := pstepSymbol_effect s w
      have hstep : execPstep s = .next t := (exec_pstep hdec hc hrun hw).trans ht
      rw [hstep]
      nofun
    · have hno : execPstep s = .refused .notEnabled := by
        simp only [execPstep, hf, he, if_true]
        exact if_neg hrun
      rw [hno]
      nofun
  · rw [execPstep, if_neg hf]
    nofun

theorem exec_ne_fault (h : s.Inv) (i : Instr) : exec i s ≠ .fault f := by
  cases i with
  | dispatch e =>
    rw [exec, execDispatch]
    refine withEvent_ne_fault fun hok _ => ?_
    obtain ⟨d, hd⟩ := dispatch_of_ok hok s.lastAddr s.lastCmd s.lastValid
    exact ⟨.dispatched d, congrArg (Option.map Comb.dispatched) hd⟩
  | parse e =>
    rw [exec, execParse]
    refine withEvent_ne_fault fun hok hc => ?_
    obtain ⟨r, hr⟩ := parse_of_ok (cfg := s.cfg) (eventOk_iff.1 hok).2 (beq_iff_eq.1 hc)
    exact ⟨.parsed r, congrArg (Option.map Comb.parsed) hr⟩
  | repeatp e =>
    rw [exec, execRepeatp]
    refine withEvent_ne_fault fun hok hc => ?_
    obtain ⟨d, hd⟩ := repeatPath_of_ok (cfg := s.cfg) (eventOk_iff.1 hok).2 (beq_iff_eq.1 hc)
      s.lastAddr s.lastCmd s.lastValid
    exact ⟨.dispatched d, congrArg (Option.map Comb.dispatched) hd⟩
  | unknownFramePath e =>
    rw [exec, execUnknownFramePath]
    exact withEvent_ne_fault fun _ _ => ⟨_, rfl⟩
  | post e =>
    simp only [exec, execPost]
    split
    · split <;> nofun
    · nofun
  | armOk =>
    simp only [exec, execArmOk]
    split <;> nofun
  | armFail =>
    simp only [exec, execArmFail]
    split
    · split <;> nofun
    · nofun
  | dequeue =>
    simp only [exec, execDequeue]
    split
    · split
      · nofun
      · split <;> nofun
    · nofun
  | timeout =>
    simp only [exec, execTimeout]
    split <;> nofun
  | decode => exact withDispatched_ne_fault h fun _ _ => nofun
  | pstep => exact execPstep_ne_fault h
  | outKey f => exact emitStep_ne_fault h _
  | outUnmappedKey f => exact emitStep_ne_fault h _
  | outBadLeading f => exact emitStep_ne_fault h _
  | outBadBit f => exact emitStep_ne_fault h _
  | outRepeat f => exact emitStep_ne_fault h _
  | outNotRepeat f => exact emitStep_ne_fault h _
  | outUnknownFrame f => exact emitStep_ne_fault h _
  | symbol | inRange | pairMatchLead | pairMatchZero | pairMatchOne | pairMatchRep | classifyBit
  | checkLeading | checkRepeat | lookup | reset => nofun

end

/-! ### Safe runs (R233) -/

section
variable {s t : State}

theorem nextXact_inv (h : s.Inv) : (nextXact s).2.Inv := by
  rw [nextXact_same]
  exact h.withScript _ _

theorem step_ne_fault (h : s.Inv) {f : Fault} : step s ≠ .fault f := by
  unfold step
  split
  · split
    · exact exec_ne_fault (nextXact_inv h) _
    · nofun
  · nofun

theorem step_inv (h : s.Inv) (hstep : step s = .next t) : t.Inv :=
  everyStepKeepsTheInvariant s t h hstep

/-- Only a failed arm request leads a step into FAULT. -/
theorem step_fsm_ne_fault (hf : s.fsm ≠ .fault) (hno : decodeXact (nextXact s).1 ≠ .ok .armFail)
    (hstep : step s = .next t) : t.fsm ≠ .fault := by
  intro ht
  obtain ⟨i, -, hi, hexec⟩ := step_next hstep
  have hf' : (nextXact s).2.fsm ≠ .fault := by
    rw [nextXact_same]
    exact hf
  obtain ⟨rfl, -⟩ := (exec_next hexec).into_fault hf' ht
  exact hno hi

theorem steps_succ_of_next {n : Nat} (h : step s = .next t) : steps (n + 1) s = steps n t := by
  simp only [steps, h]

/-- A run is safe if its first step meets no error and the rest of it is safe. -/
theorem safeRun_succ {n : Nat} (hf : s.fsm ≠ .fault) (hstep : ∀ f, step s ≠ .fault f)
    (hrest : ∀ t, step s = .next t → SafeRun n t) : SafeRun (n + 1) s := by
  intro k hk
  cases k with
  | zero =>
    refine ⟨fun t h => ?_, nofun⟩
    cases h
    exact hf
  | succ k =>
    cases hs : step s with
    | next t =>
      rw [steps_succ_of_next hs]
      exact hrest t hs k (Nat.le_of_succ_le_succ hk)
    | fault f => exact absurd hs (hstep f)
    | refused r =>
      simp only [steps, hs]
      exact ⟨nofun, nofun⟩

end

/-- Settles O60, by induction on the number of steps: each keeps the invariant, which rules out internal
errors, and none but ARM_FAIL enters FAULT. -/
theorem runsWithoutArmFailureAreSafe : Obligations.RunsWithoutArmFailureAreSafe := by
  intro n
  induction n with
  | zero =>
    intro s _ hf _ k hk
    obtain rfl := Nat.le_zero.1 hk
    refine ⟨fun t h => ?_, nofun⟩
    cases h
    exact hf
  | succ n ih =>
    intro s hinv hf hno
    refine safeRun_succ hf (fun _ => step_ne_fault hinv) fun t hstep => ?_
    refine ih t (step_inv hinv hstep) ?_ fun k u hk hu => ?_
    · exact step_fsm_ne_fault hf (hno 0 s (Nat.succ_pos n) rfl) hstep
    · exact hno (k + 1) u (Nat.succ_lt_succ hk) ((steps_succ_of_next hstep).trans hu)

/-! ### What an operation does to STATE -/

section
variable {s t : State} {i : Instr}

/-- No combinational operation is a controller step. -/
theorem combinational_and_controllerStep (i : Instr) :
    (combinational i && controllerStep i) = false := by
  cases i <;> rfl

theorem not_controllerStep_of_combinational (h : combinational i = true) :
    controllerStep i = false := by
  simpa [h] using combinational_and_controllerStep i

/-- In ARM the controller stays there until the front end has answered. -/
theorem Effect.of_arm (h : Effect s i t) (hf : s.fsm = .arm) :
    (t.fsm = .arm ∧ controllerStep i = false) ∨ i = .armOk ∨ i = .armFail := by
  cases h with
  | drive c hc => exact .inl ⟨hf, not_controllerStep_of_combinational hc⟩
  | post => exact .inl ⟨hf, rfl⟩
  | reset => exact .inl ⟨rfl, rfl⟩
  | armOk => exact .inr (.inl rfl)
  | retry | toFault => exact .inr (.inr rfl)
  | takeFrame h' | take h' | timeout h' | decode _ h' | pstep h' => cases hf.symm.trans h'

/-- In WAIT an event stays queued until DEQUEUE or RESET. -/
theorem Effect.of_wait (h : Effect s i t) (hf : s.fsm = .wait) (hq : s.queue ≠ []) :
    (t.fsm = .wait ∧ t.queue ≠ [] ∧ controllerStep i = false) ∨ i = .dequeue ∨ i = .reset := by
  cases h with
  | drive c hc => exact .inl ⟨hf, hq, not_controllerStep_of_combinational hc⟩
  | post =>
    refine .inl ⟨hf, ?_, rfl⟩
    rw [posted_queue, enqueue]
    split
    · simp
    · exact hq
  | takeFrame | take => exact .inr (.inl rfl)
  | reset => exact .inr (.inr rfl)
  | timeout _ hnil => exact absurd hnil hq
  | armOk h' | retry h' | toFault h' | decode _ h' | pstep h' => cases hf.symm.trans h'

/-- A micro-step ends the parse or reads one symbol more. -/
theorem PstepEffect.arm_or_idx_succ {w : SymW} (h : PstepEffect s w t)
    (hrun : parseRunning s = true) :
    t.fsm = .arm ∨ (t.fsm = s.fsm ∧ t.idx.toNat = s.idx.toNat + 1) := by
  cases h with
  | leading h0 => exact .inr ⟨rfl, by simp [h0]⟩
  | bit => exact .inr ⟨rfl, idx_succ_toNat (parseRunning_iff.1 hrun).1⟩
  | badLeading | badBit | last => exact .inl rfl

/-- In DECODE a controller step leads to ARM or reads one symbol more. -/
theorem Effect.of_decode (h : Effect s i t) (hf : s.fsm = .decode) :
    t.fsm = .arm ∨ (t.fsm = .decode ∧
      ((t.idx = s.idx ∧ controllerStep i = false) ∨ t.idx.toNat = s.idx.toNat + 1)) := by
  cases h with
  | drive c hc => exact .inr ⟨hf, .inl ⟨rfl, not_controllerStep_of_combinational hc⟩⟩
  | post => exact .inr ⟨hf, .inl ⟨rfl, rfl⟩⟩
  | decode => exact .inl (by simp)
  | reset => exact .inl rfl
  | pstep _ _ _ hrun _ hp =>
    rcases hp.arm_or_idx_succ hrun with harm | ⟨hsame, hidx⟩
    · exact .inl harm
    · exact .inr ⟨hsame.trans hf, .inr hidx⟩
  | armOk h' | retry h' | toFault h' | takeFrame h' | take h' | timeout h' =>
    cases hf.symm.trans h'

end

/-! ### Progress of fair runs (R201) -/

section
variable {r : Run} {n : Nat}

theorem Run.inv_of_le (h : (r.state n).Inv) {k : Nat} (hk : n ≤ k) : (r.state k).Inv :=
  Nat.le_induction h (fun k _ hinv => hinv.effect (r.effect k)) k hk

/-- In ARM the run stays there up to the first answer of the front end. -/
theorem Run.arm_until (hf : (r.state n).fsm = .arm) {m : Nat}
    (hno : ∀ k, n ≤ k → k < m → ¬ (r.op k = .armOk ∨ r.op k = .armFail)) {k : Nat} (hk : n ≤ k) :
    k ≤ m → (r.state k).fsm = .arm := by
  induction k, hk using Nat.le_induction with
  | base => exact fun _ => hf
  | succ k hk ih =>
    intro hle
    rcases (r.effect k).of_arm (ih (Nat.le_of_succ_le hle)) with ⟨harm, -⟩ | hanswer
    · exact harm
    · exact absurd hanswer (hno k hk hle)

variable (hfair : r.Fair)
include hfair

/-- ARM_OK stays enabled in ARM, and no controller step but the answer can be taken there. -/
theorem Run.arm_answered (hf : (r.state n).fsm = .arm) :
    ∃ m, n ≤ m ∧ (r.op m = .armOk ∨ r.op m = .armFail) := by
  by_contra hno
  have hstay (k : Nat) (hk : n ≤ k) : (r.state k).fsm = .arm :=
    Run.arm_until hf (fun j hj _ hanswer => hno ⟨j, hj, hanswer⟩) hk (Nat.le_refl k)
  obtain ⟨k, hk, hctl⟩ := hfair n .armOk rfl fun k hk => enabled_armOk_iff.2 (hstay k hk)
  rcases (r.effect k).of_arm (hstay k hk) with ⟨-, hnot⟩ | hanswer
  · exact absurd (hctl.symm.trans hnot) (by decide)
  · exact hno ⟨k, hk, hanswer⟩

theorem Run.arm_first_answer (hf : (r.state n).fsm = .arm) :
    ∃ m, n ≤ m ∧ (r.op m = .armOk ∨ r.op m = .armFail) ∧
      ∀ k, n ≤ k → k ≤ m → (r.state k).fsm = .arm := by
  have hex := Run.arm_answered hfair hf
  obtain ⟨hle, hanswer⟩ := Nat.find_spec hex
  exact ⟨Nat.find hex, hle, hanswer, fun k hk =>
    Run.arm_until hf (fun j hj hlt hans => Nat.find_min hex hlt ⟨hj, hans⟩) hk⟩

theorem Run.wait_dequeued (hf : (r.state n).fsm = .wait) (hq : (r.state n).queue ≠ []) :
    ∃ m, n ≤ m ∧ (r.op m = .dequeue ∨ r.op m = .reset) := by
  by_contra hno
  have hstay (k : Nat) (hk : n ≤ k) : (r.state k).fsm = .wait ∧ (r.state k).queue ≠ [] := by
    induction k, hk using Nat.le_induction with
    | base => exact ⟨hf, hq⟩
    | succ k hk ih =>
      rcases (r.effect k).of_wait ih.1 ih.2 with ⟨hf', hq', -⟩ | htaken
      · exact ⟨hf', hq'⟩
      · exact absurd ⟨k, hk, htaken⟩ hno
  obtain ⟨k, hk, hctl⟩ := hfair n .dequeue rfl fun k hk => enabled_dequeue_iff.2 (hstay k hk)
  rcases (r.effect k).of_wait (hstay k hk).1 (hstay k hk).2 with ⟨-, -, hnot⟩ | htaken
  · exact absurd (hctl.symm.trans hnot) (by decide)
  · exact hno ⟨k, hk, htaken⟩

end

/-! #### A run that stays in DECODE -/

section
variable {r : Run} {n : Nat} (hstay : ∀ k, n ≤ k → (r.state k).fsm = .decode)
include hstay

theorem Run.idx_same_or_succ {k : Nat} (hk : n ≤ k) :
    ((r.state (k + 1)).idx = (r.state k).idx ∧ controllerStep (r.op k) = false) ∨
      (r.state (k + 1)).idx.toNat = (r.state k).idx.toNat + 1 := by
  rcases (r.effect k).of_decode (hstay k hk) with harm | ⟨-, hidx⟩
  · cases harm.symm.trans (hstay (k + 1) (Nat.le_succ_of_le hk))
  · exact hidx

theorem Run.idx_mono {j k : Nat} (hj : n ≤ j) (hjk : j ≤ k) :
    (r.state j).idx.toNat ≤ (r.state k).idx.toNat := by
  induction k, hjk using Nat.le_induction with
  | base => exact Nat.le_refl _
  | succ k hjk ih =>
    rcases Run.idx_same_or_succ hstay (hj.trans hjk) with ⟨hsame, -⟩ | hsucc
    · rwa [hsame]
    · omega

variable (hinv : (r.state n).Inv)
include hinv

theorem Run.enabled_decode {k : Nat} (hk : n ≤ k) : Enabled .decode (r.state k) := by
  obtain ⟨e, hdec⟩ := (Run.inv_of_le hinv hk).decoding (hstay k hk)
  have ⟨_, _, hok⟩ := hdec
  obtain ⟨d, hd⟩ := dispatch_of_ok hok (r.state k).lastAddr (r.state k).lastCmd
    (r.state k).lastValid
  exact ⟨_, exec_decode_of_dispatchOf hdec hd⟩

/-- Every controller step taken is a micro-step that goes on, and fairness asks for ever more of them. -/
theorem Run.exists_le_idx (hfair : r.Fair) (b : Nat) :
    ∃ k, n ≤ k ∧ b ≤ (r.state k).idx.toNat := by
  induction b with
  | zero => exact ⟨n, Nat.le_refl n, Nat.zero_le _⟩
  | succ b ih =>
    obtain ⟨j, hj, hb⟩ := ih
    obtain ⟨k, hjk, hctl⟩ := hfair j .decode rfl fun k hk =>
      Run.enabled_decode hstay hinv (hj.trans hk)
    have hk : n ≤ k := hj.trans hjk
    have hle := Run.idx_mono hstay hj hjk
    rcases Run.idx_same_or_succ hstay hk with ⟨-, hnot⟩ | hsucc
    · exact absurd (hctl.symm.trans hnot) (by decide)
    · exact ⟨k + 1, Nat.le_succ_of_le hk, by omega⟩

end

/-- A fair run cannot stay in DECODE, because IDX would pass its bound (R32). -/
theorem Run.decode_to_arm {r : Run} {n : Nat} (hfair : r.Fair) (hinv : (r.state n).Inv)
    (hf : (r.state n).fsm = .decode) : ∃ m, n < m ∧ (r.state m).fsm = .arm := by
  by_contra hno
  have hstay (k : Nat) (hk : n ≤ k) : (r.state k).fsm = .decode := by
    induction k, hk using Nat.le_induction with
    | base => exact hf
    | succ k hk ih =>
      rcases (r.effect k).of_decode ih with harm | ⟨hdec, -⟩
      · exact absurd ⟨k + 1, Nat.lt_succ_of_le hk, harm⟩ hno
      · exact hdec
  obtain ⟨k, hk, hpast⟩ := Run.exists_le_idx hstay hinv hfair 34
  have := (Run.inv_of_le hinv hk).idxRange
  omega

/-- Settles O45: in each STATE the enabled step stays enabled until a controller step that leaves it is
taken. -/
theorem fairRunsMakeProgress : Obligations.FairRunsMakeProgress :=
  fun _ _ hfair hinv => ⟨Run.arm_first_answer hfair, Run.wait_dequeued hfair,
    Run.decode_to_arm hfair hinv⟩

end Sys2Proof.Machine
end
